-- ==== Sys2Proof/Word.lean ====
section
/-! DEFINITION. The word types of the block (00_scope.md R7): every value is unsigned. -/

namespace Sys2Proof

/-- `u8` of R7: one frame byte. -/
abbrev Byte := BitVec 8

/-- `u16` of R7: a 16-bit field, a register value, a CRC. -/
abbrev U16 := BitVec 16

/-- A timestamp of TS_BITS = 32 bits, in milliseconds, taken modulo 2^32 (R5, R259). -/
abbrev Timestamp := BitVec 32

end Sys2Proof
end

