-- ==== Sys2Proof/Config.lean ====
section
/-! DEFINITION. The implementation parameters of 00_scope.md R5: the constants the source fixes, and the
OPEN parameters as one record, so that a claim about every state holds for every value of them. -/

namespace Sys2Proof

/-- MAX_COIL (R5): the largest count of a coil request. -/
@[simp] abbrev maxCoil : Nat := 44

/-- MAX_REG (R5): the largest count of a register request. -/
@[simp] abbrev maxReg : Nat := 33

/-- FRAME_MAX (R5): the largest frame, CRC included, and the size of RxBuf (R35). -/
@[simp] abbrev frameMax : Nat := 256

/-- FRAME_MIN (R5, the spec's decision D5): the smallest frame the validator passes. -/
@[simp] abbrev frameMin : Nat := 4

/-- WD_TIMEOUT_MS (R5): the watchdog threshold in milliseconds. -/
@[simp] abbrev wdTimeoutMs : Nat := 10000

/-- The OPEN parameters of R5, fixed for the lifetime of an instance. The policies RO_REG and RO_COIL are
given as the list of their read-only slots. -/
structure Config where
  /-- SLAVE_ADDR (D1). -/
  slaveAddr : Byte
  /-- N_REG (D2). -/
  nReg : Nat
  /-- N_COIL (D2). -/
  nCoil : Nat
  /-- RO_REG (R33, D3): the slots i with RO_REG(i) true. -/
  roReg : List Nat
  /-- RO_COIL (R33, D3): the slots i with RO_COIL(i) true. -/
  roCoil : List Nat
  /-- FLOW_REG_ID (D4). -/
  flowRegId : Option Nat
  /-- T_TURN (D26): the turnaround delay, which no rule reads. -/
  tTurn : Nat
deriving DecidableEq, Repr

/-- RO_REG(i) (R33). -/
def Config.regReadOnly (c : Config) (i : Nat) : Bool := c.roReg.contains i

/-- RO_COIL(i) (R33). -/
def Config.coilReadOnly (c : Config) (i : Nat) : Bool := c.roCoil.contains i

/-- The reference instance of R6, the spec's own test choice (DESIGN CHOICE, log entry 1). R6 gives T_TURN no
value; the 1 here is the model's (DESIGN CHOICE, log entry 1). -/
def Config.reference : Config where
  slaveAddr := 0x01#8
  nReg := 33
  nCoil := 44
  roReg := [20, 21]
  roCoil := [8, 43]
  flowRegId := some 28
  tTurn := 1

end Sys2Proof
end

