-- ==== Sys2Proof/Machine/Operands.lean ====
section
/-! DEFINITION. Operand assembly and operand checks: byte order (R63, R96), coil packing (R65, R98, R154), the
FC 0x05 patterns (R97), the count and range checks (R150, R152, R190, R191) and the single-slot checks
(R170, R171). -/

namespace Sys2Proof.Machine

/-- `hi8(v) = v[15:8]` (R7). -/
def hi8 (v : U16) : Byte := v.extractLsb' 8 8

/-- `lo8(v) = v[7:0]` (R7). -/
def lo8 (v : U16) : Byte := v.extractLsb' 0 8

/-- `be16(k)`: the big-endian u16 at frame offsets k and k+1 (R9, R63, R96), of the bytes `rd` reads. -/
def be16 (rd : Nat → Byte) (k : Nat) : U16 :=
  (rd k).setWidth 16 <<< 8 ||| (rd (k + 1)).setWidth 16

/-- `ceil_div(a, 8)` (R7): the number of bytes that hold a coils. -/
def coilBytes (n : Nat) : Nat := (n + 7) / 8

/-- Data byte j of n packed coils (R154): lane i is coil `8j + i` of the range, and 0 where `8j + i ≥ n`
(the spec's decision D13, log entry 9). -/
def packCoilByte (coil : Nat → Bool) (n j : Nat) : Byte :=
  BitVec.ofFnLE fun i : Fin 8 => decide (8 * j + i.val < n) && coil (8 * j + i.val)

/-- The data bytes of n packed coils, coil k of the range at bit `k mod 8` of byte `k div 8` (R65, R150). -/
def packCoils (coil : Nat → Bool) (n : Nat) : List Byte :=
  (List.range (coilBytes n)).map (packCoilByte coil n)

/-- The eight bits of a data byte, least significant first (R65). -/
def byteBits (b : Byte) : List Bool := (List.range 8).map b.getLsbD

/-- The first n coils of packed DATA: coil k is `(data[k div 8] >> (k mod 8)) & 1`; bits past n are ignored
(R98, R190). -/
def unpackCoils (data : List Byte) (n : Nat) : List Bool := (data.flatMap byteBits).take n

/-- The data bytes of register values: each big-endian, in increasing order (R63, R94, R95). -/
def registerBytes (values : List U16) : List Byte := values.flatMap fun v => [hi8 v, lo8 v]

/-- What an FC 0x05 value pair asks for: `FF 00` sets, `00 00` clears, any other pair neither (R97, R102). -/
def coilPattern (value4 value5 : Byte) : Option Bool :=
  if value4 = 0xFF#8 ∧ value5 = 0x00#8 then some true
  else if value4 = 0x00#8 ∧ value5 = 0x00#8 then some false
  else none

/-- The exception codes of R103. The first three are raised; the last three are the source's "reserved values,
unused by current handlers", which no meaning raises (I1, D31). -/
inductive ExcCode where
  | illegalFunction
  | illegalDataAddress
  | illegalDataValue
  | slaveDeviceFailure
  | acknowledge
  | slaveDeviceBusy
deriving DecidableEq, Repr

/-- The byte of an exception code (R103); 0x04 to 0x06 are PRESUMED by the spec itself (G8). -/
def excByte : ExcCode → Byte
  | .illegalFunction => 0x01#8
  | .illegalDataAddress => 0x02#8
  | .illegalDataValue => 0x03#8
  | .slaveDeviceFailure => 0x04#8
  | .acknowledge => 0x05#8
  | .slaveDeviceBusy => 0x06#8

/-- The checks of a range request, count first (the spec's decision D9): COUNT ∈ [1, max] else
ILLEGAL_DATA_VALUE, then START + COUNT - 1 < cap, without wrap (R96, D10), else `rangeCode` (R251). -/
def rangeError (max cap : Nat) (rangeCode : ExcCode) (start count : U16) : Option ExcCode :=
  if count.toNat < 1 ∨ max < count.toNat then some .illegalDataValue
  else if cap ≤ start.toNat + count.toNat - 1 then some rangeCode
  else none

/-- The checks of a single-slot write, bounds and then the read-only policy, each ILLEGAL_DATA_ADDRESS
(R170, R171, R251). -/
def slotError (cap : Nat) (readOnly : Nat → Bool) (address : U16) : Option ExcCode :=
  if cap ≤ address.toNat then some .illegalDataAddress
  else if readOnly address.toNat then some .illegalDataAddress
  else none

end Sys2Proof.Machine
end

