-- ==== Sys2Proof/Machine/Crc.lean ====
section
/-! DEFINITION. The CRC-16/MODBUS codec (40_validation.md R120 to R125) and the sealing of a frame with its
address and CRC (R90, R211). -/

namespace Sys2Proof.Machine

/-- One inner step of R121. -/
def crcBit (c : U16) : U16 := if c.getLsbD 0 then (c >>> 1) ^^^ 0xA001#16 else c >>> 1

/-- One byte of R121: exclusive or into the accumulator, then eight inner steps. -/
def crcByte (c : U16) (b : Byte) : U16 := Nat.repeat crcBit 8 (c ^^^ b.setWidth 16)

/-- `crc16(s)` of R121: seed 0xFFFF, no final inversion. -/
def crc16 (s : List Byte) : U16 := s.foldl crcByte 0xFFFF#16

/-- The table entry T[i] of R122: the eight inner steps on i. -/
def crcTable (i : Byte) : U16 := Nat.repeat crcBit 8 (i.setWidth 16)

/-- The byte-wise table form of R122. -/
def crc16Table (s : List Byte) : U16 :=
  s.foldl (fun c b => (c >>> 8) ^^^ crcTable (lo8 (c ^^^ b.setWidth 16))) 0xFFFF#16

/-- The table form on the source's two accumulator halves (hi, lo), each seeded 0xFF (R122). -/
def crcHalves (s : List Byte) : Byte × Byte :=
  s.foldl (fun h b => (hi8 (crcTable (h.2 ^^^ b)), h.1 ^^^ lo8 (crcTable (h.2 ^^^ b)))) (0xFF#8, 0xFF#8)

/-- A CRC on the wire: low byte first (R64, R123). -/
def crcWire (c : U16) : List Byte := [lo8 c, hi8 c]

/-- `verify(s)` of R124. For fewer than 2 bytes the spec leaves it undefined: no value (log entry 8). -/
def verify (s : List Byte) : Option Bool :=
  if s.length < 2 then none
  else some (s.drop (s.length - 2) == crcWire (crc16 (s.take (s.length - 2))))

/-- A whole frame from its address byte and the bytes between address and CRC (R90, R211). -/
def sealFrame (addr : Byte) (pdu : List Byte) : List Byte :=
  (addr :: pdu) ++ crcWire (crc16 (addr :: pdu))

end Sys2Proof.Machine
end

