-- ==== Sys2Proof/Syntax.lean ====
section
/-! DEFINITION. The instructions: one constructor per function code of the map R100 (the eight rows of
opcode_table.json). The address byte and the CRC belong to the frame (R90), not to the instruction. -/

namespace Sys2Proof

/-- A request, with the operand fields its format gives it (R92 to R94). -/
inductive Instr where
  /-- FC 0x01, format RD (R92, R150). -/
  | readCoils (start count : U16)
  /-- FC 0x02, format RD (R92, R151). -/
  | readDiscreteInputs (start count : U16)
  /-- FC 0x03, format RD (R92, R152). -/
  | readHoldingRegisters (start count : U16)
  /-- FC 0x04, format RD (R92, R153). -/
  | readInputRegisters (start count : U16)
  /-- FC 0x05, format WS: the value is the byte pair at offsets 4 and 5 (R93, R97, R170). -/
  | writeSingleCoil (address : U16) (value4 value5 : Byte)
  /-- FC 0x06, format WS (R93, R171). -/
  | writeSingleRegister (address value : U16)
  /-- FC 0x0F, format WM: BYTECOUNT is carried and never read (R94, R99, R190). -/
  | writeMultipleCoils (start count : U16) (byteCount : Byte) (data : List Byte)
  /-- FC 0x10, format WM: register k of DATA is `be16(7 + 2k)` (R94, R98, R191). -/
  | writeMultipleRegisters (start count : U16) (byteCount : Byte) (values : List U16)
deriving DecidableEq, Repr

end Sys2Proof
end

