-- ==== Sys2Proof/WellFormed.lean ====
section
/-! DEFINITION. Which terms denote something: a request whose DATA matches its COUNT and fits in a frame
(R94), and a configuration within the bounds of R5. A count the handler refuses (0, or above MAX) is a
well-formed request: its meaning is the exception. -/

namespace Sys2Proof

/-- The number of DATA bytes D of R94 (0 for the formats without DATA): `ceil_div(COUNT, 8)` for FC 0x0F and
`2·COUNT` for FC 0x10. -/
def Instr.dataBytes : Instr → Nat
  | .readCoils _ _ => 0
  | .readDiscreteInputs _ _ => 0
  | .readHoldingRegisters _ _ => 0
  | .readInputRegisters _ _ => 0
  | .writeSingleCoil _ _ _ => 0
  | .writeSingleRegister _ _ => 0
  | .writeMultipleCoils _ count _ _ => (count.toNat + 7) / 8
  | .writeMultipleRegisters _ count _ _ => 2 * count.toNat

/-- The well-formed frame length L of R92, R93 (8 bytes) and R94 (9 + D bytes). -/
def Instr.frameLength (i : Instr) : Nat :=
  match i with
  | .readCoils _ _ => 8
  | .readDiscreteInputs _ _ => 8
  | .readHoldingRegisters _ _ => 8
  | .readInputRegisters _ _ => 8
  | .writeSingleCoil _ _ _ => 8
  | .writeSingleRegister _ _ => 8
  | .writeMultipleCoils _ _ _ _ => 9 + i.dataBytes
  | .writeMultipleRegisters _ _ _ _ => 9 + i.dataBytes

/-- The request carries exactly the DATA its COUNT asks for, and its frame is at most FRAME_MAX bytes
(R90, R94). -/
def Instr.wf (i : Instr) : Bool :=
  match i with
  | .readCoils _ _ => true
  | .readDiscreteInputs _ _ => true
  | .readHoldingRegisters _ _ => true
  | .readInputRegisters _ _ => true
  | .writeSingleCoil _ _ _ => true
  | .writeSingleRegister _ _ => true
  | .writeMultipleCoils _ _ _ data => data.length == i.dataBytes && i.frameLength ≤ frameMax
  | .writeMultipleRegisters _ _ _ values => 2 * values.length == i.dataBytes && i.frameLength ≤ frameMax

/-- The bounds of R5: 1 ≤ N ≤ 65536, and policy slots and flow register inside their file. -/
def Config.wf (c : Config) : Bool :=
  1 ≤ c.nReg && c.nReg ≤ 65536 && 1 ≤ c.nCoil && c.nCoil ≤ 65536
    && c.roReg.all (· < c.nReg) && c.roCoil.all (· < c.nCoil) && c.flowRegId.all (· < c.nReg)

end Sys2Proof
end

