-- ==== Sys2Proof/Decode.lean ====
section
/-! DEFINITION. The decoder, from the bytes of RxBuf at their fixed offsets (R92 to R100, R133), and the encoder,
from the same tables. Both put the offsets of R90 on the wire: address at 0, function code at 1. -/

namespace Sys2Proof

open Sys2Proof.Machine

/-- What the dispatcher reads from a frame: an instruction, or a function code outside the map (R101). -/
inductive Decoded where
  | instr (i : Instr)
  | illegalFunction (fc : Byte)
deriving DecidableEq, Repr

/-- DATA bytes a frame of 256 bytes has room for between offset 7 and its CRC (R94). A count that asks for
more is above MAX, so its handler answers before it reads DATA (R190, R191). -/
def dataRoom : Nat := 247

/-- The DATA bytes of FC 0x0F: `ceil_div(COUNT, 8)` bytes from offset 7 (R94). -/
def coilData (rd : Nat → Byte) (count : U16) : List Byte :=
  (List.range (min (coilBytes count.toNat) dataRoom)).map fun j => rd (7 + j)

/-- The register values of FC 0x10: register k is `be16(7 + 2k)` (R94, R98). -/
def registerData (rd : Nat → Byte) (count : U16) : List U16 :=
  (List.range (min count.toNat (dataRoom / 2))).map fun k => be16 rd (7 + 2 * k)

/-- The function-code map R100, on the byte at offset 1 alone. It is total: `rd k` is whatever byte stands at
frame offset k, beyond the frame's length too (R35, R133). -/
def decode (rd : Nat → Byte) : Decoded :=
  match (rd 1).toNat with
  | 0x01 => .instr (.readCoils (be16 rd 2) (be16 rd 4))
  | 0x02 => .instr (.readDiscreteInputs (be16 rd 2) (be16 rd 4))
  | 0x03 => .instr (.readHoldingRegisters (be16 rd 2) (be16 rd 4))
  | 0x04 => .instr (.readInputRegisters (be16 rd 2) (be16 rd 4))
  | 0x05 => .instr (.writeSingleCoil (be16 rd 2) (rd 4) (rd 5))
  | 0x06 => .instr (.writeSingleRegister (be16 rd 2) (be16 rd 4))
  | 0x0F => .instr (.writeMultipleCoils (be16 rd 2) (be16 rd 4) (rd 6) (coilData rd (be16 rd 4)))
  | 0x10 => .instr (.writeMultipleRegisters (be16 rd 2) (be16 rd 4) (rd 6) (registerData rd (be16 rd 4)))
  | _ => .illegalFunction (rd 1)

/-- The function code of an instruction (R100). -/
def functionCode : Instr → Byte
  | .readCoils _ _ => 0x01#8
  | .readDiscreteInputs _ _ => 0x02#8
  | .readHoldingRegisters _ _ => 0x03#8
  | .readInputRegisters _ _ => 0x04#8
  | .writeSingleCoil _ _ _ => 0x05#8
  | .writeSingleRegister _ _ => 0x06#8
  | .writeMultipleCoils _ _ _ _ => 0x0F#8
  | .writeMultipleRegisters _ _ _ _ => 0x10#8

/-- The bytes after the function code and before the CRC (R92 to R94). -/
def operandBytes : Instr → List Byte
  | .readCoils start count => [hi8 start, lo8 start, hi8 count, lo8 count]
  | .readDiscreteInputs start count => [hi8 start, lo8 start, hi8 count, lo8 count]
  | .readHoldingRegisters start count => [hi8 start, lo8 start, hi8 count, lo8 count]
  | .readInputRegisters start count => [hi8 start, lo8 start, hi8 count, lo8 count]
  | .writeSingleCoil address value4 value5 => [hi8 address, lo8 address, value4, value5]
  | .writeSingleRegister address value => [hi8 address, lo8 address, hi8 value, lo8 value]
  | .writeMultipleCoils start count byteCount data =>
      [hi8 start, lo8 start, hi8 count, lo8 count, byteCount] ++ data
  | .writeMultipleRegisters start count byteCount values =>
      [hi8 start, lo8 start, hi8 count, lo8 count, byteCount] ++ registerBytes values

/-- The request bytes between the address and the CRC (R90). -/
def requestPdu (i : Instr) : List Byte := functionCode i :: operandBytes i

/-- The request frame of an instruction for the slave address `addr` (R90, R105). -/
def encode (addr : Byte) (i : Instr) : List Byte := sealFrame addr (requestPdu i)

/-- Byte k of a frame whose bits from offset 1 on are `w`, numbered as opcode_table.json numbers them (its rows
match the function code at frame offset 1, bits 7..0); the address byte and every bit above `nbits` read 0. -/
def tableByte (nbits w k : Nat) : Byte :=
  if 1 ≤ k ∧ 8 * (k - 1) < nbits then BitVec.ofNat 8 (w >>> (8 * (k - 1))) else 0#8

/-- The instruction the decoder reads from a table word. -/
def decodeTableWord (nbits w : Nat) : Option Instr :=
  match decode (tableByte nbits w) with
  | .instr i => some i
  | .illegalFunction _ => none

/-- The frame of a table word for the slave address `addr`, with its CRC: what the transport would deliver. A
word with no instruction keeps its function code and no body (R101: the body is not read). -/
def tableFrame (addr : Byte) (nbits w : Nat) : List Byte :=
  match decode (tableByte nbits w) with
  | .instr i => encode addr i
  | .illegalFunction fc => sealFrame addr [fc]

end Sys2Proof
end

