-- ==== Sys2Proof/Machine/Memory.lean ====
section
/-! DEFINITION. Memory as plain data: a list of (address, value) pairs in one canonical form, addresses strictly
rising and no entry equal to what an unlisted address reads as (`dflt`). The three spaces of the block use it:
the register file, the coil file and RxBuf, each of which reads 0 where nothing is listed (their reset
contents: R31, R32, R35). -/

namespace Sys2Proof.Machine

/-- A sparse memory of values α. At α = Byte it is a list of `Host.Cell`. -/
abbrev Mem (α : Type) := List (Nat × α)

/-- The value at address a: its entry's, or `dflt` where none is listed. -/
def memRead {α : Type} (dflt : α) : Mem α → Nat → α
  | [], _ => dflt
  | (k, v) :: rest, a => if k = a then v else memRead dflt rest a

/-- The memory without an entry for a. -/
def memErase {α : Type} (m : Mem α) (a : Nat) : Mem α := m.filter fun p => p.1 ≠ a

/-- An entry for a put before the first larger address. -/
def memInsert {α : Type} : Mem α → Nat → α → Mem α
  | [], a, v => [(a, v)]
  | (k, w) :: rest, a, v => if a < k then (a, v) :: (k, w) :: rest else (k, w) :: memInsert rest a v

/-- Write v at a: the old entry goes, and a new one stands only where v is not `dflt`. -/
def memWrite {α : Type} [DecidableEq α] (dflt : α) (m : Mem α) (a : Nat) (v : α) : Mem α :=
  if v = dflt then memErase m a else memInsert (memErase m a) a v

/-- Write a list of values at a, a+1, … -/
def memWriteList {α : Type} [DecidableEq α] (dflt : α) : Mem α → Nat → List α → Mem α
  | m, _, [] => m
  | m, a, v :: vs => memWriteList dflt (memWrite dflt m a v) (a + 1) vs

/-- The write loop of a write-multiple handler (R190, R191, R192): at each slot, in increasing order, the
read-only check and then the write; the first read-only slot ends it, and what was written stays. The Bool
says whether every value was written. -/
def writeSlots {α : Type} [DecidableEq α] (dflt : α) (readOnly : Nat → Bool) :
    Mem α → Nat → List α → Mem α × Bool
  | m, _, [] => (m, true)
  | m, a, v :: vs =>
    if readOnly a then (m, false) else writeSlots dflt readOnly (memWrite dflt m a v) (a + 1) vs

/-- The canonical form: addresses strictly rising, no entry equal to `dflt`. -/
def Memory.wf {α : Type} [DecidableEq α] (dflt : α) : Mem α → Bool
  | [] => true
  | (k, v) :: rest => decide (v ≠ dflt) && rest.all (fun p => decide (k < p.1)) && Memory.wf dflt rest

end Sys2Proof.Machine
end

