-- ==== Sys2Proof/Machine/State.lean ====
section
/-! DEFINITION. The state of one instance (10_state.md R30 and the rules it names), the environment's moves and
the block's output events as plain data, the ways a step can stop, and initialisation (R280). -/

namespace Sys2Proof.Machine

/-- The sequencer phase (R40): the counterpart of a program counter (R44). -/
inductive Phase where
  | rxArmed
  | txBusy
  | fault
deriving DecidableEq, Repr

/-- The host operations that take a slot id, as R41 names them in a fault reason. -/
inductive HostOp where
  | getCoil
  | setCoil
  | clearCoil
  | toggleCoil
  | getRegister
  | setRegister
deriving DecidableEq, Repr

/-- The one fault reason of R41. -/
inductive FaultReason where
  | hostIdOutOfRange (op : HostOp) (id : Nat)
deriving DecidableEq, Repr

/-- The host calls of R231 to R237; an id is a natural number (R231). -/
inductive HostCall where
  | getCoil (id : Nat)
  | setCoil (id : Nat)
  | clearCoil (id : Nat)
  | toggleCoil (id : Nat)
  | getRegister (id : Nat)
  | setRegister (id : Nat) (value : U16)
  | isMasterSilent
deriving DecidableEq, Repr

/-- One move of the environment (R73, R230, R253): each is atomic, and they come one at a time. -/
inductive EnvMove where
  /-- The host calls `tick`; t is the tick's one sample of `now()` (R238). -/
  | tick (t : Timestamp)
  /-- The transport delivers a frame (R253). -/
  | rxComplete (bytes : List Byte)
  /-- The transport has sent the reply (R253). -/
  | txComplete
  /-- The host calls an operation other than `tick` (R231 to R237). -/
  | host (call : HostCall)
  /-- A restart: a new instance with the same configuration (R280, R282). -/
  | init (t0 : Timestamp)
deriving DecidableEq, Repr

/-- The output events of the port trace (R263, R266). -/
inductive PortEvent where
  | armRx (maxLen : Nat)
  | setDir (enabled : Bool)
  | delay (duration : Nat)
  | transmit (bytes : List Byte)
  | hook (id : Nat)
deriving DecidableEq, Repr

/-- A value a host call returned (R231, R235, R237). -/
inductive HostValue where
  | coil (b : Bool)
  | register (v : U16)
  | masterSilent (b : Bool)
deriving DecidableEq, Repr

/-- The state of one instance. The fields from `reg` to `timeoutFlag` are the record of R30; `cfg` is the
configuration of R5, which no step writes (log entry 1); `env`, `trace` and `returns` are the ports (log entries
2 and 4). -/
structure State where
  /-- The configuration of R5, R33. -/
  cfg : Config
  /-- The register file (R31), slot to u16. -/
  reg : Mem U16
  /-- The coil file (R32), slot to bit. -/
  coil : Mem Bool
  /-- RxBuf (R35), frame offset to byte. -/
  rx : List Host.Cell
  /-- rx_len (R36). -/
  rxLen : Nat
  /-- rx_done (R36). -/
  rxDone : Bool
  /-- tx_done (R37). -/
  txDone : Bool
  /-- TxBuf (R38). -/
  txBuf : List Byte
  /-- dir (R39): true is transmit-enable asserted. -/
  dir : Bool
  /-- phase (R40). -/
  phase : Phase
  /-- fault_reason (R41). -/
  faultReason : Option FaultReason
  /-- last_poll (R42). -/
  lastPoll : Timestamp
  /-- timeout_flag (R43). -/
  timeoutFlag : Bool
  /-- What the environment will do, in order. -/
  env : List EnvMove
  /-- The port trace (R266), oldest first. -/
  trace : List PortEvent
  /-- The values host calls returned (R266), oldest first. -/
  returns : List HostValue
deriving DecidableEq, Repr

/-- Why the machine stops. -/
inductive Fault where
  /-- Raised by `step` in phase FAULT for every move but a new init: "In phase FAULT no tick, event or host call
  has any step: the instance is stuck for good" (R41, R239). Safe: the block has no further step there. -/
  | instanceFaulted (reason : Option FaultReason)
deriving DecidableEq, Repr

/-- Why a step has no meaning. -/
inductive Refusal where
  /-- Raised by `exec` for an instruction without a meaning; no arm raises it now. Safe. -/
  | notModelled (mnemonic : String)
  /-- Raised by the receive-complete event out of phase, which the spec gives no move (R253, R264, D24).
  Unsafe only against a transport that breaks its duty (log entry 5). -/
  | receiverNotArmed
  /-- Raised by the transmit-complete event out of phase, which the spec gives no move (R253, R264, D24).
  Unsafe only against a transport that breaks its duty (log entry 5). -/
  | noTransmitOutstanding
deriving DecidableEq, Repr

/-- `init(t0)` of R280, for a configuration and what the environment will do next: every field at the value R280
gives, and the one event it emits. The policy tables are not cleared (R33, C6). -/
def State.init (cfg : Config) (t0 : Timestamp) (env : List EnvMove) : State where
  cfg := cfg
  reg := []
  coil := []
  rx := []
  rxLen := 0
  rxDone := false
  txDone := false
  txBuf := []
  dir := false
  phase := .rxArmed
  faultReason := none
  lastPoll := t0
  timeoutFlag := false
  env := env
  trace := [.armRx frameMax]
  returns := []

/-- The machine right after reset: `init(0)` of the reference instance, nothing scripted (log entries 1, 2, 3). -/
def State.reset : State := State.init Config.reference 0#32 []

end Sys2Proof.Machine
end

