-- ==== Sys2Proof/Machine/Flags.lean ====
section
/-! DEFINITION. The flags (10_state.md R45): the two event latches, set by the transport and cleared by the tick
that consumes them (R36, R37), and the watchdog's timeout flag (R259, R260). -/

namespace Sys2Proof.Machine

/-- The comparator of R260: elapsed time modulo 2^32 (R259) against the threshold. -/
def timedOut (t lastPoll : Timestamp) : Bool := decide (wdTimeoutMs ≤ (t - lastPoll).toNat)

/-- `watchdog_update(t)` of R260. -/
def watchdogUpdate (t : Timestamp) (s : State) : State :=
  { s with timeoutFlag := timedOut t s.lastPoll }

/-- The receive latch set, with the reported length (R36, R253). -/
def latchRx (len : Nat) (s : State) : State := { s with rxDone := true, rxLen := len }

/-- The receive latch consumed (R36, R238): rx_len keeps its value. -/
def consumeRx (s : State) : State := { s with rxDone := false }

/-- The transmit latch set (R37, R253). -/
def latchTx (s : State) : State := { s with txDone := true }

/-- The transmit latch consumed (R37, R214). -/
def consumeTx (s : State) : State := { s with txDone := false }

end Sys2Proof.Machine
end

