-- ==== Sys2Proof/Machine/Ops.lean ====
section
/-! DEFINITION. The named operations over the store, the buffers and the ports: slot access (R31, R32, R35), the
port trace (R266), the response transmitter (R211, R213), taking an exception (R210, R256), completing a response
(R214, R257), the drop (R130) and the fatal outcome (R41). -/

namespace Sys2Proof.Machine

/-- `reg[a]` (R9, R31). -/
def State.regRead (s : State) (a : Nat) : U16 := memRead 0#16 s.reg a

/-- `reg[a] <- v` (R9, R31). -/
def State.regWrite (s : State) (a : Nat) (v : U16) : State := { s with reg := memWrite 0#16 s.reg a v }

/-- `coil[a]` (R9, R32). -/
def State.coilRead (s : State) (a : Nat) : Bool := memRead false s.coil a

/-- `coil[a] <- b` (R9, R32). -/
def State.coilWrite (s : State) (a : Nat) (b : Bool) : State := { s with coil := memWrite false s.coil a b }

/-- `rx[k]` (R9, R35). -/
def State.rxByte (s : State) (k : Nat) : Byte := memRead 0#8 s.rx k

/-- `emit E`, for several events in order (R9, R266). -/
def State.emit (s : State) (events : List PortEvent) : State := { s with trace := s.trace ++ events }

/-- A host call returns a value (R266). -/
def State.giveBack (s : State) (v : HostValue) : State := { s with returns := s.returns ++ [v] }

/-- `build_frame(pdu)` of R211: address, PDU and CRC, assembled whole into TxBuf (R212). -/
def buildFrame (pdu : List Byte) (s : State) : State := { s with txBuf := sealFrame s.cfg.slaveAddr pdu }

/-- The transmit-enable line driven, with its port event (R39, R213, R214). -/
def driveLine (b : Bool) (s : State) : State := { s with dir := b, trace := s.trace ++ [.setDir b] }

/-- `phase <- P` (R9, R40). -/
def State.toPhase (s : State) (p : Phase) : State := { s with phase := p }

/-- `send_response(pdu)` of R213. -/
def sendResponse (pdu : List Byte) (s : State) : State :=
  let s1 := driveLine true ((buildFrame pdu s).emit [.delay s.cfg.tTurn])
  (s1.emit [.transmit s1.txBuf]).toPhase .txBusy

/-- Taking an exception (R210, R256): nothing is saved, no mode changes, what was written stays; the PDU becomes
`[FC | 0x80, code]` and control goes to `send_response`. -/
def raiseException (fc : Byte) (code : ExcCode) (s : State) : State :=
  sendResponse [fc ||| 0x80#8, excByte code] s

/-- `finish_response()` of R214, the completion of every response; an exception response completes the same way,
there being no return instruction (R257). -/
def finishResponse (s : State) : State :=
  ((driveLine false (consumeTx s)).emit [.delay s.cfg.tTurn, .armRx frameMax]).toPhase .rxArmed

/-- `drop` of R130: the receiver is re-armed and nothing else happens. -/
def drop (s : State) : State := s.emit [.armRx frameMax]

/-- `fatal(HostIdOutOfRange(op, id))` of R41: no port event, no response (R239). -/
def fatal (op : HostOp) (id : Nat) (s : State) : State :=
  { s with phase := .fault, faultReason := some (.hostIdOutOfRange op id) }

end Sys2Proof.Machine
end

