-- ==== Sys2Proof/Machine/Read.lean ====
section
/-! DEFINITION. The read handlers (41_read.md): FC 0x01 to 0x04. They read the store and write nothing but the
response. The response's function byte is the request's (R215). -/

namespace Sys2Proof.Machine

/-- `read_coils()` of R150: both checks answer ILLEGAL_DATA_VALUE (the coil idiosyncrasy, I8). -/
def readCoilRange (fc : Byte) (start count : U16) (s : State) : State :=
  match rangeError maxCoil s.cfg.nCoil .illegalDataValue start count with
  | some code => raiseException fc code s
  | none =>
    sendResponse (fc :: BitVec.ofNat 8 (coilBytes count.toNat)
      :: packCoils (fun k => s.coilRead (start.toNat + k)) count.toNat) s

/-- `read_registers()` of R152: the range check answers ILLEGAL_DATA_ADDRESS. -/
def readRegisterRange (fc : Byte) (start count : U16) (s : State) : State :=
  match rangeError maxReg s.cfg.nReg .illegalDataAddress start count with
  | some code => raiseException fc code s
  | none =>
    sendResponse (fc :: BitVec.ofNat 8 (2 * count.toNat)
      :: registerBytes ((List.range count.toNat).map fun k => s.regRead (start.toNat + k))) s

/-- READ_COILS (R150). -/
def execReadCoils (start count : U16) (s : State) : Host.Outcome State Fault Refusal :=
  .next (readCoilRange 0x01#8 start count s)

/-- READ_DISCRETE_INPUTS (R151): served from the coil file. -/
def execReadDiscreteInputs (start count : U16) (s : State) : Host.Outcome State Fault Refusal :=
  .next (readCoilRange 0x02#8 start count s)

/-- READ_HOLDING_REGISTERS (R152). -/
def execReadHoldingRegisters (start count : U16) (s : State) : Host.Outcome State Fault Refusal :=
  .next (readRegisterRange 0x03#8 start count s)

/-- READ_INPUT_REGISTERS (R153): served from the register file. -/
def execReadInputRegisters (start count : U16) (s : State) : Host.Outcome State Fault Refusal :=
  .next (readRegisterRange 0x04#8 start count s)

end Sys2Proof.Machine
end

