-- ==== Sys2Proof/Machine/WriteMultiple.lean ====
section
/-! DEFINITION. The write-multiple handlers (43_write_multiple.md): FC 0x0F and 0x10. The range check answers
ILLEGAL_DATA_ADDRESS for both (the spec's decision D11); BYTECOUNT is not read (R99). -/

namespace Sys2Proof.Machine

/-- How a write-multiple handler ends once its loop is over (R190, R191, R192): the echo of start and count
(R193), or ILLEGAL_DATA_ADDRESS with the slots written so far kept. -/
def endWriteLoop (fc : Byte) (start count : U16) (finished : Bool) (s : State) : State :=
  if finished then sendResponse [fc, hi8 start, lo8 start, hi8 count, lo8 count] s
  else raiseException fc .illegalDataAddress s

/-- The coil loop of R190 and its end. -/
def writeCoilRange (fc : Byte) (start count : U16) (bits : List Bool) (s : State) : State :=
  match writeSlots false s.cfg.coilReadOnly s.coil start.toNat bits with
  | (coils, finished) => endWriteLoop fc start count finished { s with coil := coils }

/-- The register loop of R191 and its end. -/
def writeRegisterRange (fc : Byte) (start count : U16) (values : List U16) (s : State) : State :=
  match writeSlots 0#16 s.cfg.regReadOnly s.reg start.toNat values with
  | (regs, finished) => endWriteLoop fc start count finished { s with reg := regs }

/-- WRITE_MULTIPLE_COILS (R190). -/
def execWriteMultipleCoils (start count : U16) (_byteCount : Byte) (data : List Byte) (s : State) :
    Host.Outcome State Fault Refusal :=
  match rangeError maxCoil s.cfg.nCoil .illegalDataAddress start count with
  | some code => .next (raiseException 0x0F#8 code s)
  | none => .next (writeCoilRange 0x0F#8 start count (unpackCoils data count.toNat) s)

/-- WRITE_MULTIPLE_REGISTERS (R191): no hook fires (D14). -/
def execWriteMultipleRegisters (start count : U16) (_byteCount : Byte) (values : List U16) (s : State) :
    Host.Outcome State Fault Refusal :=
  match rangeError maxReg s.cfg.nReg .illegalDataAddress start count with
  | some code => .next (raiseException 0x10#8 code s)
  | none => .next (writeRegisterRange 0x10#8 start count (values.take count.toNat) s)

end Sys2Proof.Machine
end

