-- ==== Sys2Proof/Machine/WriteSingle.lean ====
section
/-! DEFINITION. The write-single handlers (42_write_single.md): FC 0x05 and 0x06. -/

namespace Sys2Proof.Machine

/-- The store effect of an FC 0x05 value pair: set, clear, or nothing for any other pair (R97, R170). -/
def applyCoilPattern (a : Nat) (value4 value5 : Byte) (s : State) : State :=
  match coilPattern value4 value5 with
  | some b => s.coilWrite a b
  | none => s

/-- The flow-sensor hook (R172): one event when the written register is FLOW_REG_ID. -/
def flowHook (a : Nat) (s : State) : State :=
  if s.cfg.flowRegId = some a then s.emit [.hook a] else s

/-- WRITE_SINGLE_COIL (R170): bounds, read-only policy, value pattern; the request's four bytes are echoed. -/
def execWriteSingleCoil (address : U16) (value4 value5 : Byte) (s : State) :
    Host.Outcome State Fault Refusal :=
  match slotError s.cfg.nCoil s.cfg.coilReadOnly address with
  | some code => .next (raiseException 0x05#8 code s)
  | none =>
    .next (sendResponse [0x05#8, hi8 address, lo8 address, value4, value5]
      (applyCoilPattern address.toNat value4 value5 s))

/-- WRITE_SINGLE_REGISTER (R171): bounds, read-only policy, store, hook; the request's four bytes are echoed. -/
def execWriteSingleRegister (address value : U16) (s : State) : Host.Outcome State Fault Refusal :=
  match slotError s.cfg.nReg s.cfg.regReadOnly address with
  | some code => .next (raiseException 0x06#8 code s)
  | none =>
    .next (sendResponse [0x06#8, hi8 address, lo8 address, hi8 value, lo8 value]
      (flowHook address.toNat (s.regWrite address.toNat value)))

end Sys2Proof.Machine
end

