-- ==== Sys2Proof/Machine/Dispatch.lean ====
section
/-! DEFINITION. The handler of each function code (40_validation.md R132, 30_encoding.md R100). -/

namespace Sys2Proof.Machine

def exec (i : Instr) (s : State) : Host.Outcome State Fault Refusal :=
  match i with
  | .readCoils start count => Sys2Proof.Machine.execReadCoils start count s
  | .readDiscreteInputs start count => Sys2Proof.Machine.execReadDiscreteInputs start count s
  | .readHoldingRegisters start count => Sys2Proof.Machine.execReadHoldingRegisters start count s
  | .readInputRegisters start count => Sys2Proof.Machine.execReadInputRegisters start count s
  | .writeSingleCoil address value4 value5 => Sys2Proof.Machine.execWriteSingleCoil address value4 value5 s
  | .writeSingleRegister address value => Sys2Proof.Machine.execWriteSingleRegister address value s
  | .writeMultipleCoils start count byteCount data => Sys2Proof.Machine.execWriteMultipleCoils start count byteCount data s
  | .writeMultipleRegisters start count byteCount values => Sys2Proof.Machine.execWriteMultipleRegisters start count byteCount values s

end Sys2Proof.Machine
end

