-- ==== Sys2Proof/Machine/HostCalls.lean ====
section
/-! DEFINITION. The host operations (45_host_interface.md R231 to R237). The read-only policy is not consulted
(R34, D16) and no hook fires (R236); an id out of range is fatal (R41, R239). -/

namespace Sys2Proof.Machine

/-- One host call, on an instance that is not in phase FAULT. -/
def hostCall (call : HostCall) (s : State) : State :=
  match call with
  | .getCoil id =>
    if s.cfg.nCoil ≤ id then fatal .getCoil id s else s.giveBack (.coil (s.coilRead id))
  | .setCoil id =>
    if s.cfg.nCoil ≤ id then fatal .setCoil id s else s.coilWrite id true
  | .clearCoil id =>
    if s.cfg.nCoil ≤ id then fatal .clearCoil id s else s.coilWrite id false
  | .toggleCoil id =>
    if s.cfg.nCoil ≤ id then fatal .toggleCoil id s else s.coilWrite id (s.coilRead id ^^ true)
  | .getRegister id =>
    if s.cfg.nReg ≤ id then fatal .getRegister id s else s.giveBack (.register (s.regRead id))
  | .setRegister id value =>
    if s.cfg.nReg ≤ id then fatal .setRegister id s else s.regWrite id value
  | .isMasterSilent => s.giveBack (.masterSilent s.timeoutFlag)

end Sys2Proof.Machine
end

