-- ==== Sys2Proof/Machine/Transport.lean ====
section
/-! DEFINITION. The transport's events (60_exceptions.md R253). Out of phase they have no move (R264, D24). -/

namespace Sys2Proof.Machine

/-- The received bytes put in RxBuf at offsets 0..min(L,256)-1 and latched; higher offsets are unchanged (R35,
R253, D28). -/
def receive (bytes : List Byte) (s : State) : State :=
  latchRx bytes.length { s with rx := memWriteList 0#8 s.rx 0 (bytes.take frameMax) }

/-- `rx_complete(bytes)`, enabled only in RX_ARMED with rx_done = 0 (R253). -/
def rxComplete (bytes : List Byte) (s : State) : Host.Outcome State Fault Refusal :=
  if s.phase = .rxArmed ∧ s.rxDone = false then .next (receive bytes s) else .refused .receiverNotArmed

/-- `tx_complete()`, enabled only in TX_BUSY with tx_done = 0 (R253). -/
def txComplete (s : State) : Host.Outcome State Fault Refusal :=
  if s.phase = .txBusy ∧ s.txDone = false then .next (latchTx s) else .refused .noTransmitOutstanding

end Sys2Proof.Machine
end

