-- ==== Sys2Proof/Machine/Validate.lean ====
section
/-! DEFINITION. The frame validator (40_validation.md R126 to R129). -/

namespace Sys2Proof.Machine

/-- Why a received frame is dropped (R127, R128, R129). -/
inductive DropReason where
  | badLength
  | foreignAddress
  | badCrc
deriving DecidableEq, Repr

/-- The received bytes `rx[0, L)` (R126). -/
def rxFrame (s : State) : List Byte := (List.range s.rxLen).map s.rxByte

/-- The checks of the validator in their order, length, address, CRC (R126, R255); none where the frame passes. -/
def checkFrame (s : State) : Option DropReason :=
  if s.rxLen < frameMin ∨ frameMax < s.rxLen then some .badLength
  else if s.rxByte 0 ≠ s.cfg.slaveAddr then some .foreignAddress
  else if verify (rxFrame s) = some true then none
  else some .badCrc

end Sys2Proof.Machine
end

