-- ==== Sys2Proof/Machine/Tick.lean ====
section
/-! DEFINITION. The tick (45_host_interface.md R238) with the frame path it runs (40_validation.md R132), the
environment's moves, and the placing of a frame for the next tick. -/

namespace Sys2Proof.Machine

/-- A further effect on the next state of an outcome; a stop stays as it is. -/
def thenDo (f : State → State) : Host.Outcome State Fault Refusal → Host.Outcome State Fault Refusal
  | .next s => .next (f s)
  | .fault r => .fault r
  | .refused r => .refused r

/-- The dispatcher (R132): the instruction RxBuf holds runs, and a code outside the map raises ILLEGAL_FUNCTION
(R101). -/
def dispatch (s : State) : Host.Outcome State Fault Refusal :=
  match decode s.rxByte with
  | .instr i => exec i s
  | .illegalFunction fc => .next (raiseException fc .illegalFunction s)

/-- `last_poll <- t` of a validated frame (R131, R42). -/
def recordPoll (t : Timestamp) (s : State) : State := { s with lastPoll := t }

/-- `process_frame(t)` of R132. -/
def processFrame (t : Timestamp) (s : State) : Host.Outcome State Fault Refusal :=
  match checkFrame s with
  | some _ => .next (drop s)
  | none => dispatch (recordPoll t s)

/-- The event a tick consumes: the one its phase waits for, if it is latched (R238, R254). -/
def consumeEvent (t : Timestamp) (s : State) : Host.Outcome State Fault Refusal :=
  if s.phase = .txBusy ∧ s.txDone = true then .next (finishResponse s)
  else if s.phase = .rxArmed ∧ s.rxDone = true then processFrame t (consumeRx s)
  else .next s

/-- `tick(t)` of R238: the event first, then the watchdog (D22). -/
def tick (t : Timestamp) (s : State) : Host.Outcome State Fault Refusal :=
  thenDo (watchdogUpdate t) (consumeEvent t s)

/-- One move of the environment. In phase FAULT only a new init has a step (R41, R282); a new init creates a new
instance with the same configuration (R280). -/
def envMove (e : EnvMove) (s : State) : Host.Outcome State Fault Refusal :=
  match e with
  | .init t0 => .next (State.init s.cfg t0 s.env)
  | .tick t => if s.phase = .fault then .fault (.instanceFaulted s.faultReason) else tick t s
  | .rxComplete bytes =>
    if s.phase = .fault then .fault (.instanceFaulted s.faultReason) else rxComplete bytes s
  | .txComplete => if s.phase = .fault then .fault (.instanceFaulted s.faultReason) else txComplete s
  | .host call =>
    if s.phase = .fault then .fault (.instanceFaulted s.faultReason) else .next (hostCall call s)

/-- The block with no move coming: it idles and does nothing (R267), or it is stuck (R41). -/
def idle (s : State) : Host.Outcome State Fault Refusal :=
  if s.phase = .fault then .fault (.instanceFaulted s.faultReason) else .next s

/-- A frame delivered and a tick coming, so that the very next step runs it: the receiver armed, the frame in
RxBuf and latched, and a tick at the time of the last poll at the head of the script (log entry 6). -/
def placeFrame (frame : List Byte) (s : State) : State :=
  receive frame { s with phase := .rxArmed, env := .tick s.lastPoll :: s.env }

end Sys2Proof.Machine
end

