-- ==== Sys2Proof/Machine/Step.lean ====
section
/-! DEFINITION. One step: the next move of the environment script (20_memory.md R73, 70_reset_and_hazards.md
R290). -/

namespace Sys2Proof.Machine

/-- The head of the script is taken off and made; with nothing scripted the block idles. -/
def step (s : State) : Host.Outcome State Fault Refusal :=
  match s.env with
  | [] => idle s
  | e :: rest => envMove e { s with env := rest }

/-- The state with the instruction of a table word stored where the next step takes its instruction: as a frame
with this instance's address and its CRC, received, and a tick to serve it (log entry 6). -/
def State.withFetchWord (s : State) (nbits w : Nat) : State :=
  placeFrame (tableFrame s.cfg.slaveAddr nbits w) s

end Sys2Proof.Machine
end

