-- ==== Sys2Proof/Safety.lean ====
section
/-! DEFINITION. What counts as a safe run, and the terms the statements use: the invariant every step keeps, what a
response is, and what an instruction leaves alone. -/

namespace Sys2Proof.Machine

/-- An instance that can still move: not in phase FAULT, which is never a good final state (R41, R290). -/
def Running (s : State) : Prop := s.phase ≠ .fault

/-- The three spaces hold the canonical form, and list no address outside their bounds (R31, R32, R35, R71). -/
def MemoryInv (s : State) : Prop :=
  Memory.wf 0#16 s.reg = true ∧ Memory.wf false s.coil = true ∧ Memory.wf 0#8 s.rx = true
    ∧ (∀ p ∈ s.reg, p.1 < s.cfg.nReg) ∧ (∀ p ∈ s.coil, p.1 < s.cfg.nCoil) ∧ (∀ p ∈ s.rx, p.1 < frameMax)

/-- The sequencer, the line and the latches agree: the line is driven exactly while a response is out (R39, R286),
a latch is set only in the phase that waits for it and never both (R252, R254), and a fault reason stands exactly
in phase FAULT (R41). -/
def SequencerInv (s : State) : Prop :=
  (s.phase = .rxArmed → s.dir = false ∧ s.txDone = false)
    ∧ (s.phase = .txBusy → s.dir = true ∧ s.rxDone = false)
    ∧ ¬(s.rxDone = true ∧ s.txDone = true)
    ∧ (s.phase = .fault ↔ s.faultReason ≠ none)

/-- TxBuf never exceeds a frame (R38, R212), and a response in flight is a whole frame. -/
def TxBufInv (s : State) : Prop :=
  s.txBuf.length ≤ frameMax ∧ (s.phase = .txBusy → frameMin ≤ s.txBuf.length)

/-- The invariant of an instance. -/
def Inv (s : State) : Prop := s.cfg.wf = true ∧ MemoryInv s ∧ SequencerInv s ∧ TxBufInv s

/-- From s to t a response with this PDU was assembled and handed to the transport, after the events `before`
(R211, R213): TxBuf is the address, the PDU and the CRC of both, low byte first, the line is driven, and the port
events are the settling delay, the line and the frame. -/
def Answered (s t : State) (before : List PortEvent) (pdu : List Byte) : Prop :=
  t.txBuf = (s.cfg.slaveAddr :: pdu)
      ++ [lo8 (crc16 (s.cfg.slaveAddr :: pdu)), hi8 (crc16 (s.cfg.slaveAddr :: pdu))]
    ∧ t.dir = true ∧ t.phase = .txBusy
    ∧ t.trace = s.trace ++ before ++ [.delay s.cfg.tTurn, .setDir true, .transmit t.txBuf]

/-- Every element but the store and the response path (TxBuf, line, phase, trace) is unchanged: the
configuration, RxBuf, the latches, the fault reason, the watchdog state, and the model's script and returns. -/
def KeepsRest (s t : State) : Prop :=
  t.cfg = s.cfg ∧ t.rx = s.rx ∧ t.rxLen = s.rxLen ∧ t.rxDone = s.rxDone ∧ t.txDone = s.txDone
    ∧ t.faultReason = s.faultReason ∧ t.lastPoll = s.lastPoll ∧ t.timeoutFlag = s.timeoutFlag
    ∧ t.env = s.env ∧ t.returns = s.returns

/-- Every register slot reads as before. -/
def KeepsRegisters (s t : State) : Prop := ∀ a, t.regRead a = s.regRead a

/-- Every coil reads as before. -/
def KeepsCoils (s t : State) : Prop := ∀ a, t.coilRead a = s.coilRead a

end Sys2Proof.Machine
end

