-- ==== Sys2Proof/Certificates/Slice0/Obligations.lean ====
section
/-! DEFINITION. The statements for the provers. Numbers stand as the spec writes them (44, 33, 256, 10000), so that a
wrong constant of the model makes a statement false. A docstring names the decision (D…) or the log entry a
statement rests on where it rests on more than the source's own words. -/

open Sys2Proof
open Sys2Proof.Machine

/-! ### Encoding -/

/-- One frame of each function code, written out from R92 to R94 and R105, decodes to its instruction (R100). -/
def Obligations.WrittenFramesDecodeToTheirInstructions : Prop :=
  (decode fun k => ([0x01#8, 0x01#8, 0x00#8, 0x03#8, 0x00#8, 0x0A#8] : List Byte).getD k 0) = .instr (.readCoils 3 10)
    ∧ (decode fun k => ([0x01#8, 0x02#8, 0x00#8, 0x28#8, 0x00#8, 0x05#8] : List Byte).getD k 0)
        = .instr (.readDiscreteInputs 40 5)
    ∧ (decode fun k => ([0x01#8, 0x03#8, 0x80#8, 0x00#8, 0x00#8, 0x21#8] : List Byte).getD k 0)
        = .instr (.readHoldingRegisters 0x8000 33)
    ∧ (decode fun k => ([0x01#8, 0x04#8, 0x00#8, 0x01#8, 0x00#8, 0x02#8] : List Byte).getD k 0)
        = .instr (.readInputRegisters 1 2)
    ∧ (decode fun k => ([0x01#8, 0x05#8, 0x00#8, 0x06#8, 0x12#8, 0x34#8] : List Byte).getD k 0)
        = .instr (.writeSingleCoil 6 0x12#8 0x34#8)
    ∧ (decode fun k => ([0x01#8, 0x06#8, 0x00#8, 0x1C#8, 0xBE#8, 0xEF#8] : List Byte).getD k 0)
        = .instr (.writeSingleRegister 28 0xBEEF)
    ∧ (decode fun k => ([0x01#8, 0x0F#8, 0x00#8, 0x0A#8, 0x00#8, 0x0A#8, 0x02#8, 0x8D#8, 0x03#8] : List Byte).getD k 0)
        = .instr (.writeMultipleCoils 10 10 2 [0x8D#8, 0x03#8])
    ∧ (decode fun k => ([0x01#8, 0x10#8, 0x00#8, 0x00#8, 0x00#8, 0x02#8, 0x04#8, 0x12#8, 0x34#8, 0x56#8, 0x78#8] : List Byte).getD k 0)
        = .instr (.writeMultipleRegisters 0 2 4 [0x1234, 0x5678])

/-- Decoding gives back the instruction a frame was made from, whatever stands in the buffer beyond the frame (R90,
R92 to R94, R98, R100). -/
def Obligations.DecodeOfEncodeIsTheInstruction : Prop :=
  ∀ (addr : Byte) (i : Instr) (rd : Nat → Byte), i.wf = true →
    (∀ k b, (encode addr i)[k]? = some b → rd k = b) → decode rd = .instr i

/-- The other direction: the bytes an instruction encodes to are the bytes it was decoded from, for every buffer,
the malformed requests too (R92 to R94, R100). -/
def Obligations.EncodeOfDecodedGivesTheBytesRead : Prop :=
  ∀ (rd : Nat → Byte) (i : Instr), decode rd = .instr i →
    ∀ k b, (requestPdu i)[k]? = some b → rd (k + 1) = b

/-- R101: the codes outside the map R100 are illegal, each raises ILLEGAL_FUNCTION with `FC | 0x80`, which is FC itself
where bit 7 is set, and nothing else happens; the answer is the same for every body. -/
def Obligations.IllegalFunctionCodesAnswerIllegalFunction : Prop :=
  (∀ rd : Nat → Byte, (∃ i, decode rd = .instr i)
      ↔ rd 1 ∈ ([0x01#8, 0x02#8, 0x03#8, 0x04#8, 0x05#8, 0x06#8, 0x0F#8, 0x10#8] : List Byte))
    ∧ (∀ s : State, s.rxByte 1 ∉ ([0x01#8, 0x02#8, 0x03#8, 0x04#8, 0x05#8, 0x06#8, 0x0F#8, 0x10#8] : List Byte) →
        ∃ t, dispatch s = .next t ∧ Answered s t [] [s.rxByte 1 ||| 0x80#8, 0x01#8]
          ∧ KeepsRegisters s t ∧ KeepsCoils s t ∧ KeepsRest s t)
    ∧ (∀ fc : Byte, fc.getLsbD 7 = true → fc ||| 0x80#8 = fc)

/-- A decoded write-multiple request whose count is in range carries exactly the DATA its handler reads, from offset 7
on, whatever the frame's length was (R94, R98, R133; the spec's decision D6). -/
def Obligations.DecodedWritesCarryTheDataAtOffsetSeven : Prop :=
  (∀ (rd : Nat → Byte) (start count : U16) (bc : Byte) (data : List Byte),
      decode rd = .instr (.writeMultipleCoils start count bc data) → count.toNat ≤ 44 →
      data.length = (count.toNat + 7) / 8 ∧ ∀ j, j < data.length → data[j]? = some (rd (7 + j)))
    ∧ (∀ (rd : Nat → Byte) (start count : U16) (bc : Byte) (values : List U16),
      decode rd = .instr (.writeMultipleRegisters start count bc values) → count.toNat ≤ 33 →
      values.length = count.toNat
        ∧ ∀ k v, values[k]? = some v → hi8 v = rd (7 + 2 * k) ∧ lo8 v = rd (8 + 2 * k))

/-- How a frame decodes depends only on the bytes of RxBuf from offset 1 on, at offsets 1 to 255 (R77, R104, R133). -/
def Obligations.DecodeReadsOnlyTheReceiveBuffer : Prop :=
  ∀ rd rd' : Nat → Byte, (∀ k, 1 ≤ k → k < 256 → rd k = rd' k) → decode rd = decode rd'

/-! ### The CRC codec -/

/-- The table form and its two-accumulator form give the bit-serial CRC for every byte sequence (R121, R122, D34). -/
def Obligations.CrcTableFormsAgreeWithTheBitSerialForm : Prop :=
  ∀ s : List Byte, crc16Table s = crc16 s ∧ ((crcHalves s).1 ++ (crcHalves s).2 : BitVec 16) = crc16 s

/-- The first sentence of R125: a sequence with its own CRC, low byte first, verifies. -/
def Obligations.VerifyAcceptsASequenceWithItsCrc : Prop :=
  ∀ s : List Byte, verify (s ++ [lo8 (crc16 s), hi8 (crc16 s)]) = some true

/-- One flipped bit anywhere before the CRC is detected, for every frame length (R125; the spec takes it from general
knowledge, G4). -/
def Obligations.VerifyRejectsOneFlippedBit : Prop :=
  ∀ (s : List Byte) (k bit : Nat) (b : Byte), s[k]? = some b → bit < 8 →
    verify (s.set k (b ^^^ (1#8 <<< bit)) ++ [lo8 (crc16 s), hi8 (crc16 s)]) = some false

/-! ### Responses -/

/-- R211, R213 and R216: every instruction ends in one response, assembled whole (address, PDU, CRC over all of it, low byte
first), with the line driven and the port events in their order; before them only the hook may stand. -/
def Obligations.EveryInstructionSendsOneSealedResponse : Prop :=
  ∀ (i : Instr) (s : State), ∃ t before pdu, exec i s = .next t ∧ Answered s t before pdu
    ∧ (before = [] ∨ ∃ a, before = [.hook a])

/-- The response formats (R95, R103, R210, R212, R215): the function byte is the request's (D12), or the request's with
bit 7 set in a five-byte frame with code 1, 2 or 3; no response is longer than 71 bytes. -/
def Obligations.ResponsesHaveTheirFormat : Prop :=
  ∀ (i : Instr) (s t : State), exec i s = .next t →
    5 ≤ t.txBuf.length ∧ t.txBuf.length ≤ 71
      ∧ (t.txBuf[1]? = some (functionCode i)
        ∨ (t.txBuf[1]? = some (functionCode i ||| 0x80#8) ∧ t.txBuf.length = 5
          ∧ (t.txBuf[2]? = some 0x01#8 ∨ t.txBuf[2]? = some 0x02#8 ∨ t.txBuf[2]? = some 0x03#8)))

/-! ### The tick and the frame path -/

/-- A step runs the decoded instruction (R132, R238): a tick that finds a latched, validated frame consumes the latch,
records the poll time, runs `exec` of what RxBuf decodes to, and then updates the watchdog (R131, R260; the spec's
decisions D19 to D22, log entry 9). -/
def Obligations.StepRunsTheDecodedInstruction : Prop :=
  ∀ (s : State) (t : Timestamp) (rest : List EnvMove) (i : Instr),
    s.env = .tick t :: rest → s.phase = .rxArmed → s.rxDone = true → checkFrame s = none →
    decode s.rxByte = .instr i →
    step s = thenDo (watchdogUpdate t) (exec i { s with env := rest, rxDone := false, lastPoll := t })

/-- End to end (R90, R126 to R133, R238, R253): a well-formed request for this slave, delivered by the transport in any
state that can receive it, whatever RxBuf held, is run by the next tick as exactly its instruction; the tick's one
time sample and its watchdog update after the event are R260 and the spec's decisions D21 and D22 (log entry 9). -/
def Obligations.ReceivedFrameRunsItsInstruction : Prop :=
  ∀ (s : State) (t : Timestamp) (rest : List EnvMove) (i : Instr),
    i.wf = true → s.phase = .rxArmed → s.rxDone = false →
    s.env = .rxComplete (encode s.cfg.slaveAddr i) :: .tick t :: rest →
    ∃ u, step s = .next u ∧ u.reg = s.reg ∧ u.coil = s.coil ∧ u.cfg = s.cfg ∧ u.trace = s.trace
      ∧ step u = thenDo (watchdogUpdate t) (exec i { u with env := rest, rxDone := false, lastPoll := t })

/-- A frame of a bad length, for another address, or with a CRC that does not match is dropped: no response, nothing but
the re-arm emitted, nothing written by the drop (R127, R128, R129, R130, R250). The tick then compares the watchdog
against the poll time that the drop left (R238, R260; the spec's decisions D19, D20, D21, D22). The lower bound 4 is
its decision D5 (log entry 9). -/
def Obligations.BadFramesAreDroppedSilently : Prop :=
  ∀ (s : State) (t : Timestamp) (rest : List EnvMove),
    s.env = .tick t :: rest → s.phase = .rxArmed → s.rxDone = true →
    (s.rxLen < 4 ∨ 256 < s.rxLen ∨ s.rxByte 0 ≠ s.cfg.slaveAddr
      ∨ verify ((List.range s.rxLen).map s.rxByte) = some false) →
    step s = .next { s with env := rest, rxDone := false, trace := s.trace ++ [.armRx 256], timeoutFlag := timedOut t s.lastPoll }

/-- R130: a drop emits ArmRx(256) and changes nothing else. -/
def Obligations.DropOnlyRearmsTheReceiver : Prop :=
  ∀ (s : State) (t : Timestamp) (r : DropReason), checkFrame s = some r →
    processFrame t s = .next { s with trace := s.trace ++ [.armRx 256] }

/-- Every validated frame is answered exactly once, in the tick that consumes it, and feeds the watchdog, exception or
not (R131, R216, R238, R260, R261 a and c; the spec's decisions D21, D22, log entry 9). -/
def Obligations.ValidatedFrameIsAnsweredOnceAndFeedsTheWatchdog : Prop :=
  ∀ (s : State) (t : Timestamp) (rest : List EnvMove),
    s.env = .tick t :: rest → s.phase = .rxArmed → s.rxDone = true → checkFrame s = none →
    ∃ u before pdu, step s = .next u ∧ Answered s u before pdu ∧ (before = [] ∨ ∃ a, before = [.hook a])
      ∧ u.lastPoll = t ∧ u.timeoutFlag = false ∧ u.rxDone = false ∧ u.env = rest

/-- A tick that finds no event of its phase only updates the watchdog (R238, R260; the spec's decisions D19, D20, D22,
log entry 9). -/
def Obligations.QuietTickOnlyUpdatesTheWatchdog : Prop :=
  ∀ (s : State) (t : Timestamp) (rest : List EnvMove), s.env = .tick t :: rest → s.phase ≠ .fault →
    ¬(s.phase = .txBusy ∧ s.txDone = true) → ¬(s.phase = .rxArmed ∧ s.rxDone = true) →
    step s = .next { s with env := rest, timeoutFlag := timedOut t s.lastPoll }

/-! ### The read handlers -/

/-- FC 0x01 and 0x02 (R150, R151, R154): a range of 1 to 44 backed coils is answered packed, first coil in bit 0 of the
first byte, unused lanes 0 (D13), with the request's function byte (D12); the store is only read. -/
def Obligations.ReadCoilsAnswersThePackedRange : Prop :=
  ∀ (s : State) (start count : U16) (i : Instr) (fc : Byte),
    (i = .readCoils start count ∧ fc = 0x01#8) ∨ (i = .readDiscreteInputs start count ∧ fc = 0x02#8) →
    1 ≤ count.toNat → count.toNat ≤ 44 → start.toNat + count.toNat ≤ s.cfg.nCoil →
    ∃ t data, exec i s = .next t ∧ Answered s t [] (fc :: BitVec.ofNat 8 data.length :: data)
      ∧ data.length = (count.toNat + 7) / 8
      ∧ (∀ j b lane, data[j]? = some b → lane < 8 →
          b.getLsbD lane = (decide (8 * j + lane < count.toNat) && s.coilRead (start.toNat + (8 * j + lane))))
      ∧ KeepsRegisters s t ∧ KeepsCoils s t ∧ KeepsRest s t

/-- FC 0x01 and 0x02 outside that range answer ILLEGAL_DATA_VALUE, for the count and for the range alike (R150, R151,
R251), and write nothing. -/
def Obligations.ReadCoilsRefusesOtherRanges : Prop :=
  ∀ (s : State) (start count : U16) (i : Instr) (fc : Byte),
    (i = .readCoils start count ∧ fc = 0x81#8) ∨ (i = .readDiscreteInputs start count ∧ fc = 0x82#8) →
    ¬(1 ≤ count.toNat ∧ count.toNat ≤ 44 ∧ start.toNat + count.toNat ≤ s.cfg.nCoil) →
    ∃ t, exec i s = .next t ∧ Answered s t [] [fc, 0x03#8] ∧ KeepsRegisters s t ∧ KeepsCoils s t ∧ KeepsRest s t

/-- FC 0x03 and 0x04 (R152, R153): a range of 1 to 33 backed registers is answered with its byte count and each register
big-endian, in order, with the request's function byte (D12); the store is only read. -/
def Obligations.ReadRegistersAnswersTheRange : Prop :=
  ∀ (s : State) (start count : U16) (i : Instr) (fc : Byte),
    (i = .readHoldingRegisters start count ∧ fc = 0x03#8) ∨ (i = .readInputRegisters start count ∧ fc = 0x04#8) →
    1 ≤ count.toNat → count.toNat ≤ 33 → start.toNat + count.toNat ≤ s.cfg.nReg →
    ∃ t data, exec i s = .next t ∧ Answered s t [] (fc :: BitVec.ofNat 8 data.length :: data)
      ∧ data.length = 2 * count.toNat
      ∧ (∀ k, k < count.toNat → data[2 * k]? = some (hi8 (s.regRead (start.toNat + k)))
          ∧ data[2 * k + 1]? = some (lo8 (s.regRead (start.toNat + k))))
      ∧ KeepsRegisters s t ∧ KeepsCoils s t ∧ KeepsRest s t

/-- FC 0x03 and 0x04: a bad count answers ILLEGAL_DATA_VALUE, and only then a bad range ILLEGAL_DATA_ADDRESS (R152, R153,
R251; count first: D9); nothing is written. -/
def Obligations.ReadRegistersRefusesOtherRanges : Prop :=
  ∀ (s : State) (start count : U16) (i : Instr) (fc : Byte),
    (i = .readHoldingRegisters start count ∧ fc = 0x83#8) ∨ (i = .readInputRegisters start count ∧ fc = 0x84#8) →
    (¬(1 ≤ count.toNat ∧ count.toNat ≤ 33) →
      ∃ t, exec i s = .next t ∧ Answered s t [] [fc, 0x03#8] ∧ KeepsRegisters s t ∧ KeepsCoils s t ∧ KeepsRest s t)
    ∧ (1 ≤ count.toNat → count.toNat ≤ 33 → s.cfg.nReg < start.toNat + count.toNat →
      ∃ t, exec i s = .next t ∧ Answered s t [] [fc, 0x02#8] ∧ KeepsRegisters s t ∧ KeepsCoils s t ∧ KeepsRest s t)

/-! ### The write-single handlers -/

/-- R170, whole: the operands FC 0x05 decodes to; out of bounds or read-only answers ILLEGAL_DATA_ADDRESS and writes
nothing; otherwise `FF 00` sets the coil, `00 00` clears it, any other pair leaves it, no other coil or register
changes, and the request's four bytes are echoed. -/
def Obligations.WriteSingleCoilFollowsItsRule : Prop :=
  (∀ rd : Nat → Byte, rd 1 = 0x05#8 →
      ∃ a, decode rd = .instr (.writeSingleCoil a (rd 4) (rd 5)) ∧ hi8 a = rd 2 ∧ lo8 a = rd 3)
    ∧ ∀ (s : State) (a : U16) (v4 v5 : Byte),
      (s.cfg.nCoil ≤ a.toNat ∨ s.cfg.coilReadOnly a.toNat = true →
        ∃ t, exec (.writeSingleCoil a v4 v5) s = .next t ∧ Answered s t [] [0x85#8, 0x02#8]
          ∧ KeepsRegisters s t ∧ KeepsCoils s t ∧ KeepsRest s t)
      ∧ (a.toNat < s.cfg.nCoil → s.cfg.coilReadOnly a.toNat = false →
        ∃ t, exec (.writeSingleCoil a v4 v5) s = .next t ∧ Answered s t [] [0x05#8, hi8 a, lo8 a, v4, v5]
          ∧ (v4 = 0xFF#8 → v5 = 0x00#8 → t.coilRead a.toNat = true)
          ∧ (v4 = 0x00#8 → v5 = 0x00#8 → t.coilRead a.toNat = false)
          ∧ (¬(v4 = 0xFF#8 ∧ v5 = 0x00#8) → ¬(v4 = 0x00#8 ∧ v5 = 0x00#8) → t.coilRead a.toNat = s.coilRead a.toNat)
          ∧ (∀ b, b ≠ a.toNat → t.coilRead b = s.coilRead b)
          ∧ KeepsRegisters s t ∧ KeepsRest s t)

/-- R171, whole: the operands FC 0x06 decodes to; out of bounds or read-only answers ILLEGAL_DATA_ADDRESS and writes
nothing; otherwise the value is stored as given, no other register and no coil changes, the hook event comes before
the response exactly where the register is FLOW_REG_ID, and the request's four bytes are echoed. -/
def Obligations.WriteSingleRegisterFollowsItsRule : Prop :=
  (∀ rd : Nat → Byte, rd 1 = 0x06#8 →
      ∃ a v, decode rd = .instr (.writeSingleRegister a v)
        ∧ hi8 a = rd 2 ∧ lo8 a = rd 3 ∧ hi8 v = rd 4 ∧ lo8 v = rd 5)
    ∧ ∀ (s : State) (a v : U16),
      (s.cfg.nReg ≤ a.toNat ∨ s.cfg.regReadOnly a.toNat = true →
        ∃ t, exec (.writeSingleRegister a v) s = .next t ∧ Answered s t [] [0x86#8, 0x02#8]
          ∧ KeepsRegisters s t ∧ KeepsCoils s t ∧ KeepsRest s t)
      ∧ (a.toNat < s.cfg.nReg → s.cfg.regReadOnly a.toNat = false →
        ∃ t, exec (.writeSingleRegister a v) s = .next t
          ∧ Answered s t (if s.cfg.flowRegId = some a.toNat then [.hook a.toNat] else [])
              [0x06#8, hi8 a, lo8 a, hi8 v, lo8 v]
          ∧ t.regRead a.toNat = v ∧ (∀ b, b ≠ a.toNat → t.regRead b = s.regRead b)
          ∧ KeepsCoils s t ∧ KeepsRest s t)

/-- The hook fires only in a tick that runs FC 0x06 to the flow register: not for FC 0x10, not for a host call, not for
a refused write (R172; D14). -/
def Obligations.HookFiresOnlyForWriteSingleRegister : Prop :=
  ∀ (s u : State) (a : Nat), step s = .next u → s.trace.count (.hook a) < u.trace.count (.hook a) →
    ∃ t rest address value, s.env = .tick t :: rest ∧ s.phase = .rxArmed ∧ s.rxDone = true ∧ checkFrame s = none
      ∧ decode s.rxByte = .instr (.writeSingleRegister address value) ∧ address.toNat = a
      ∧ s.cfg.flowRegId = some a ∧ a < s.cfg.nReg ∧ s.cfg.regReadOnly a = false

/-! ### The write-multiple handlers -/

/-- FC 0x0F (R190, R65, R98): with no read-only coil in a range of 1 to 44 backed coils, coil k of the range takes bit
`k mod 8` of data byte `k div 8`, every other coil and every register stays, and start and count are echoed; whatever
BYTECOUNT is (D8). -/
def Obligations.WriteMultipleCoilsWritesTheRange : Prop :=
  ∀ (s : State) (start count : U16) (bc : Byte) (data : List Byte),
    data.length = (count.toNat + 7) / 8 → 1 ≤ count.toNat → count.toNat ≤ 44 →
    start.toNat + count.toNat ≤ s.cfg.nCoil →
    (∀ k, k < count.toNat → s.cfg.coilReadOnly (start.toNat + k) = false) →
    ∃ t, exec (.writeMultipleCoils start count bc data) s = .next t
      ∧ Answered s t [] [0x0F#8, hi8 start, lo8 start, hi8 count, lo8 count]
      ∧ (∀ k b, k < count.toNat → data[k / 8]? = some b → t.coilRead (start.toNat + k) = b.getLsbD (k % 8))
      ∧ (∀ a, a < start.toNat ∨ start.toNat + count.toNat ≤ a → t.coilRead a = s.coilRead a)
      ∧ KeepsRegisters s t ∧ KeepsRest s t

/-- FC 0x10 (R191, R98): with no read-only register in a range of 1 to 33 backed registers, register k of the range
takes value k, every other register and every coil stays, no hook fires (D14), and start and count are echoed;
whatever BYTECOUNT is (D8). -/
def Obligations.WriteMultipleRegistersWritesTheRange : Prop :=
  ∀ (s : State) (start count : U16) (bc : Byte) (values : List U16),
    values.length = count.toNat → 1 ≤ count.toNat → count.toNat ≤ 33 →
    start.toNat + count.toNat ≤ s.cfg.nReg →
    (∀ k, k < count.toNat → s.cfg.regReadOnly (start.toNat + k) = false) →
    ∃ t, exec (.writeMultipleRegisters start count bc values) s = .next t
      ∧ Answered s t [] [0x10#8, hi8 start, lo8 start, hi8 count, lo8 count]
      ∧ (∀ k v, values[k]? = some v → t.regRead (start.toNat + k) = v)
      ∧ (∀ a, a < start.toNat ∨ start.toNat + count.toNat ≤ a → t.regRead a = s.regRead a)
      ∧ KeepsCoils s t ∧ KeepsRest s t

/-- R192, for both handlers: at the first read-only slot of the range the request fails with ILLEGAL_DATA_ADDRESS, the
slots before it hold their new values, that slot and every other are unchanged; a request that fails the count or
the range check writes nothing. That no hook fires for a register FC 0x10 has written, FLOW_REG_ID too, is not R192's
but the spec's decision D14 (R191; log entry 9). -/
def Obligations.AbortedWriteKeepsTheSlotsBeforeIt : Prop :=
  (∀ (s : State) (start count : U16) (bc : Byte) (data : List Byte) (j : Nat),
      data.length = (count.toNat + 7) / 8 → count.toNat ≤ 44 → start.toNat + count.toNat ≤ s.cfg.nCoil →
      j < count.toNat → (∀ k, k < j → s.cfg.coilReadOnly (start.toNat + k) = false) →
      s.cfg.coilReadOnly (start.toNat + j) = true →
      ∃ t, exec (.writeMultipleCoils start count bc data) s = .next t ∧ Answered s t [] [0x8F#8, 0x02#8]
        ∧ (∀ k b, k < j → data[k / 8]? = some b → t.coilRead (start.toNat + k) = b.getLsbD (k % 8))
        ∧ (∀ a, a < start.toNat ∨ start.toNat + j ≤ a → t.coilRead a = s.coilRead a)
        ∧ KeepsRegisters s t ∧ KeepsRest s t)
    ∧ (∀ (s : State) (start count : U16) (bc : Byte) (values : List U16) (j : Nat),
      values.length = count.toNat → count.toNat ≤ 33 → start.toNat + count.toNat ≤ s.cfg.nReg →
      j < count.toNat → (∀ k, k < j → s.cfg.regReadOnly (start.toNat + k) = false) →
      s.cfg.regReadOnly (start.toNat + j) = true →
      ∃ t, exec (.writeMultipleRegisters start count bc values) s = .next t ∧ Answered s t [] [0x90#8, 0x02#8]
        ∧ (∀ k v, k < j → values[k]? = some v → t.regRead (start.toNat + k) = v)
        ∧ (∀ a, a < start.toNat ∨ start.toNat + j ≤ a → t.regRead a = s.regRead a)
        ∧ KeepsCoils s t ∧ KeepsRest s t)
    ∧ (∀ (s : State) (start count : U16) (bc : Byte) (data : List Byte),
      ¬(1 ≤ count.toNat ∧ count.toNat ≤ 44 ∧ start.toNat + count.toNat ≤ s.cfg.nCoil) →
      ∃ t, exec (.writeMultipleCoils start count bc data) s = .next t ∧ KeepsRegisters s t ∧ KeepsCoils s t)
    ∧ (∀ (s : State) (start count : U16) (bc : Byte) (values : List U16),
      ¬(1 ≤ count.toNat ∧ count.toNat ≤ 33 ∧ start.toNat + count.toNat ≤ s.cfg.nReg) →
      ∃ t, exec (.writeMultipleRegisters start count bc values) s = .next t ∧ KeepsRegisters s t ∧ KeepsCoils s t)

/-- The codes of the count and range checks of FC 0x0F and 0x10 (R190, R191, R251): a bad count ILLEGAL_DATA_VALUE, and
only then a bad range ILLEGAL_DATA_ADDRESS (count first: D9; the range code of FC 0x0F: D11), for any DATA. -/
def Obligations.WriteMultipleRefusesOtherRanges : Prop :=
  ∀ (s : State) (start count : U16) (bc : Byte),
    (∀ data, ¬(1 ≤ count.toNat ∧ count.toNat ≤ 44) →
      ∃ t, exec (.writeMultipleCoils start count bc data) s = .next t ∧ Answered s t [] [0x8F#8, 0x03#8] ∧ KeepsRest s t)
    ∧ (∀ data, 1 ≤ count.toNat → count.toNat ≤ 44 → s.cfg.nCoil < start.toNat + count.toNat →
      ∃ t, exec (.writeMultipleCoils start count bc data) s = .next t ∧ Answered s t [] [0x8F#8, 0x02#8] ∧ KeepsRest s t)
    ∧ (∀ values, ¬(1 ≤ count.toNat ∧ count.toNat ≤ 33) →
      ∃ t, exec (.writeMultipleRegisters start count bc values) s = .next t ∧ Answered s t [] [0x90#8, 0x03#8]
        ∧ KeepsRest s t)
    ∧ (∀ values, 1 ≤ count.toNat → count.toNat ≤ 33 → s.cfg.nReg < start.toNat + count.toNat →
      ∃ t, exec (.writeMultipleRegisters start count bc values) s = .next t ∧ Answered s t [] [0x90#8, 0x02#8]
        ∧ KeepsRest s t)

/-- R193: the success response of FC 0x0F and 0x10 is the request's own bytes 1 to 5, not recomputed. That no hook fires
where the range of FC 0x10 holds FLOW_REG_ID is not R193's but the spec's decision D14 (R191; log entry 9). -/
def Obligations.WriteMultipleEchoesTheRequestBytes : Prop :=
  ∀ s : State,
    (s.rxByte 1 = 0x0F#8 → 1 ≤ (be16 s.rxByte 4).toNat → (be16 s.rxByte 4).toNat ≤ 44 →
      (be16 s.rxByte 2).toNat + (be16 s.rxByte 4).toNat ≤ s.cfg.nCoil →
      (∀ k, k < (be16 s.rxByte 4).toNat → s.cfg.coilReadOnly ((be16 s.rxByte 2).toNat + k) = false) →
      ∃ t, dispatch s = .next t
        ∧ Answered s t [] [s.rxByte 1, s.rxByte 2, s.rxByte 3, s.rxByte 4, s.rxByte 5])
    ∧ (s.rxByte 1 = 0x10#8 → 1 ≤ (be16 s.rxByte 4).toNat → (be16 s.rxByte 4).toNat ≤ 33 →
      (be16 s.rxByte 2).toNat + (be16 s.rxByte 4).toNat ≤ s.cfg.nReg →
      (∀ k, k < (be16 s.rxByte 4).toNat → s.cfg.regReadOnly ((be16 s.rxByte 2).toNat + k) = false) →
      ∃ t, dispatch s = .next t
        ∧ Answered s t [] [s.rxByte 1, s.rxByte 2, s.rxByte 3, s.rxByte 4, s.rxByte 5])

/-- R194: coils written by FC 0x0F and read by FC 0x01 in any later state that holds the same coils come back as the same
DATA, the bits at and above the count in the last byte cleared (D13), across byte boundaries of the store. -/
def Obligations.CoilsWrittenAreReadBack : Prop :=
  ∀ (s : State) (start count : U16) (bc : Byte) (data : List Byte),
    data.length = (count.toNat + 7) / 8 → 1 ≤ count.toNat → count.toNat ≤ 44 →
    start.toNat + count.toNat ≤ s.cfg.nCoil →
    (∀ k, k < count.toNat → s.cfg.coilReadOnly (start.toNat + k) = false) →
    ∃ t, exec (.writeMultipleCoils start count bc data) s = .next t
      ∧ ∀ r : State, r.cfg = s.cfg → KeepsCoils t r →
        ∃ u out, exec (.readCoils start count) r = .next u
          ∧ Answered r u [] (0x01#8 :: BitVec.ofNat 8 out.length :: out) ∧ out.length = data.length
          ∧ ∀ j b c lane, out[j]? = some b → data[j]? = some c → lane < 8 →
              b.getLsbD lane = (decide (8 * j + lane < count.toNat) && c.getLsbD lane)

/-! ### Who writes the store, the flags and the configuration -/

/-- Protection (R34, R72): a read-only slot changes in no step but a host setter of that very slot or a new init; in
particular no frame changes it. -/
def Obligations.OnlyTheHostChangesReadOnlySlots : Prop :=
  ∀ (s u : State), step s = .next u → (∀ t0 rest, s.env ≠ .init t0 :: rest) →
    (∀ a, s.cfg.regReadOnly a = true → (∀ v rest, s.env ≠ .host (.setRegister a v) :: rest) →
      u.regRead a = s.regRead a)
    ∧ (∀ a, s.cfg.coilReadOnly a = true →
      (∀ rest, s.env ≠ .host (.setCoil a) :: rest ∧ s.env ≠ .host (.clearCoil a) :: rest
        ∧ s.env ≠ .host (.toggleCoil a) :: rest) →
      u.coilRead a = s.coilRead a)

/-- The writers of the store (R31, R32, R62): a register changes only in a tick that runs FC 0x06 or 0x10, a host
`set_register` of it, or a new init; a coil only in a tick that runs FC 0x05 or 0x0F, a host setter of it, or a new
init. -/
def Obligations.StoreIsWrittenOnlyByItsWriters : Prop :=
  ∀ (s u : State) (a : Nat), step s = .next u →
    (u.regRead a ≠ s.regRead a →
      (∃ t rest i, s.env = .tick t :: rest ∧ s.phase = .rxArmed ∧ s.rxDone = true ∧ checkFrame s = none
        ∧ decode s.rxByte = .instr i ∧ (functionCode i = 0x06#8 ∨ functionCode i = 0x10#8) ∧ a < s.cfg.nReg)
      ∨ (∃ v rest, s.env = .host (.setRegister a v) :: rest ∧ a < s.cfg.nReg)
      ∨ (∃ t0 rest, s.env = .init t0 :: rest))
    ∧ (u.coilRead a ≠ s.coilRead a →
      (∃ t rest i, s.env = .tick t :: rest ∧ s.phase = .rxArmed ∧ s.rxDone = true ∧ checkFrame s = none
        ∧ decode s.rxByte = .instr i ∧ (functionCode i = 0x05#8 ∨ functionCode i = 0x0F#8) ∧ a < s.cfg.nCoil)
      ∨ (∃ rest, (s.env = .host (.setCoil a) :: rest ∨ s.env = .host (.clearCoil a) :: rest
          ∨ s.env = .host (.toggleCoil a) :: rest) ∧ a < s.cfg.nCoil)
      ∨ (∃ t0 rest, s.env = .init t0 :: rest))

/-- R45: the latches are set only by the transport and cleared only by the tick that consumes them (or with the instance,
by a new init), the timeout flag is written only by a tick's comparison (or a new init), no handler writes a flag, and
none reads one. The comparison itself, 10000 ms or more modulo 2^32, made after the event, is R259 and R260 with the
spec's decisions D19, D20 and D22 (log entry 9). -/
def Obligations.FlagsAreWrittenOnlyByTheirOwners : Prop :=
  (∀ s u : State, step s = .next u →
      (s.rxDone = false → u.rxDone = true → ∃ bytes rest, s.env = .rxComplete bytes :: rest)
      ∧ (s.rxDone = true → u.rxDone = false →
          (∃ t rest, s.env = .tick t :: rest ∧ s.phase = .rxArmed) ∨ (∃ t0 rest, s.env = .init t0 :: rest))
      ∧ (s.txDone = false → u.txDone = true → ∃ rest, s.env = .txComplete :: rest)
      ∧ (s.txDone = true → u.txDone = false →
          (∃ t rest, s.env = .tick t :: rest ∧ s.phase = .txBusy) ∨ (∃ t0 rest, s.env = .init t0 :: rest))
      ∧ (u.timeoutFlag ≠ s.timeoutFlag →
          (∃ t rest, s.env = .tick t :: rest ∧ u.timeoutFlag = decide (10000 ≤ (t - u.lastPoll).toNat))
            ∨ (∃ t0 rest, s.env = .init t0 :: rest)))
    ∧ (∀ (i : Instr) (s : State) (a b c : Bool), ∃ t, exec i s = .next t
      ∧ t.rxDone = s.rxDone ∧ t.txDone = s.txDone ∧ t.timeoutFlag = s.timeoutFlag
      ∧ exec i { s with rxDone := a, txDone := b, timeoutFlag := c }
          = .next { t with rxDone := a, txDone := b, timeoutFlag := c })

/-- "no operation of the block writes it" (R5): no step changes the configuration, a new init included (R33, R280). -/
def Obligations.NoStepWritesTheConfiguration : Prop :=
  ∀ s u : State, step s = .next u → u.cfg = s.cfg

/-! ### The watchdog -/

/-- Every tick of a running instance has a next state, and leaves the flag at the comparison of its time sample with the
poll time, which only a validated frame moved (R42, R131, R238, R259, R260; the spec's decisions D19 to D22, log entry
9). -/
def Obligations.EveryTickComparesTheWatchdog : Prop :=
  ∀ (s : State) (t : Timestamp) (rest : List EnvMove), s.env = .tick t :: rest → s.phase ≠ .fault →
    ∃ u, step s = .next u ∧ u.timeoutFlag = decide (10000 ≤ (t - u.lastPoll).toNat)
      ∧ (s.phase = .rxArmed ∧ s.rxDone = true ∧ checkFrame s = none → u.lastPoll = t)
      ∧ (¬(s.phase = .rxArmed ∧ s.rxDone = true ∧ checkFrame s = none) → u.lastPoll = s.lastPoll)

/-- The comparison is right across a wrap of the clock, for every elapsed time below 2^32 ms (R259; D19). -/
def Obligations.ElapsedTimeIsRightAcrossTheWrap : Prop :=
  ∀ (t0 : Timestamp) (e : Nat), e < 2 ^ 32 → (timedOut (t0 + BitVec.ofNat 32 e) t0 = true ↔ 10000 ≤ e)

/-! ### Host calls, transport events, faults -/

/-- The getters (R231, R235, R237): the value of the slot, or the flag as the last tick left it, is returned, and nothing
else changes. -/
def Obligations.HostGettersReturnTheStateUnchanged : Prop :=
  ∀ (s : State) (rest : List EnvMove) (call : HostCall) (v : HostValue), s.phase ≠ .fault →
    s.env = .host call :: rest →
    ((∃ id, call = .getCoil id ∧ id < s.cfg.nCoil ∧ v = .coil (s.coilRead id))
      ∨ (∃ id, call = .getRegister id ∧ id < s.cfg.nReg ∧ v = .register (s.regRead id))
      ∨ (call = .isMasterSilent ∧ v = .masterSilent s.timeoutFlag)) →
    step s = .next { s with env := rest, returns := s.returns ++ [v] }

/-- The setters (R232, R233, R234, R236): an in-range slot takes its value whatever its policy says (D16), no other slot
changes, and no port event, response or flag does (no hook: D14). -/
def Obligations.HostSettersWriteOneSlot : Prop :=
  ∀ (s : State) (rest : List EnvMove), s.phase ≠ .fault →
    (∀ call id b, s.env = .host call :: rest → id < s.cfg.nCoil →
      ((call = .setCoil id ∧ b = true) ∨ (call = .clearCoil id ∧ b = false)
        ∨ (call = .toggleCoil id ∧ b = !s.coilRead id)) →
      ∃ u, step s = .next u ∧ u.coilRead id = b ∧ (∀ a, a ≠ id → u.coilRead a = s.coilRead a)
        ∧ u = { s with env := rest, coil := u.coil })
    ∧ (∀ id v, s.env = .host (.setRegister id v) :: rest → id < s.cfg.nReg →
      ∃ u, step s = .next u ∧ u.regRead id = v ∧ (∀ a, a ≠ id → u.regRead a = s.regRead a)
        ∧ u = { s with env := rest, reg := u.reg })

/-- R239: a host call with an id out of range emits no port event and no response and writes nothing but the phase and
the reason, and the block stays in FAULT: no move but a new init has a step. -/
def Obligations.FatalHostCallStopsTheInstance : Prop :=
  ∀ (s : State) (rest : List EnvMove) (call : HostCall) (op : HostOp) (id : Nat), s.phase ≠ .fault →
    s.env = .host call :: rest →
    ((call = .getCoil id ∧ op = .getCoil ∧ s.cfg.nCoil ≤ id) ∨ (call = .setCoil id ∧ op = .setCoil ∧ s.cfg.nCoil ≤ id)
      ∨ (call = .clearCoil id ∧ op = .clearCoil ∧ s.cfg.nCoil ≤ id)
      ∨ (call = .toggleCoil id ∧ op = .toggleCoil ∧ s.cfg.nCoil ≤ id)
      ∨ (call = .getRegister id ∧ op = .getRegister ∧ s.cfg.nReg ≤ id)
      ∨ (∃ v, call = .setRegister id v ∧ op = .setRegister ∧ s.cfg.nReg ≤ id)) →
    ∃ u, step s = .next u
      ∧ u = { s with env := rest, phase := .fault, faultReason := some (.hostIdOutOfRange op id) }
      ∧ ∀ m more, (∀ t0, m ≠ .init t0) →
          step { u with env := m :: more } = .fault (.instanceFaulted (some (.hostIdOutOfRange op id)))

/-- From phase FAULT a step has a next state only by a new init, and that is a fresh instance (R41, R282; D17). -/
def Obligations.FaultIsLeftOnlyByInit : Prop :=
  ∀ s u : State, s.phase = .fault → step s = .next u →
    ∃ t0 rest, s.env = .init t0 :: rest ∧ u = State.init s.cfg t0 rest

/-- Receive-complete (R35, R36, R253): in RX_ARMED with the latch clear the frame's bytes stand in RxBuf, offsets beyond
min(L, 256) keep what they held (D28), the length and the latch are set and nothing else changes; anywhere else it
has no move (D24). -/
def Obligations.ReceiveCompleteFillsTheBuffer : Prop :=
  ∀ (s : State) (bytes : List Byte) (rest : List EnvMove), s.env = .rxComplete bytes :: rest → s.phase ≠ .fault →
    (s.phase = .rxArmed → s.rxDone = false →
      ∃ u, step s = .next u ∧ (∀ k b, k < 256 → bytes[k]? = some b → u.rxByte k = b)
        ∧ (∀ k, bytes.length ≤ k ∨ 256 ≤ k → u.rxByte k = s.rxByte k)
        ∧ u = { s with env := rest, rx := u.rx, rxLen := bytes.length, rxDone := true })
    ∧ (¬(s.phase = .rxArmed ∧ s.rxDone = false) → step s = .refused .receiverNotArmed)

/-- Transmit-complete (R37, R253): in TX_BUSY with the latch clear it sets the latch and nothing else; anywhere else it
has no move (D24). -/
def Obligations.TransmitCompleteSetsItsLatch : Prop :=
  ∀ (s : State) (rest : List EnvMove), s.env = .txComplete :: rest → s.phase ≠ .fault →
    (s.phase = .txBusy → s.txDone = false → step s = .next { s with env := rest, txDone := true })
    ∧ (¬(s.phase = .txBusy ∧ s.txDone = false) → step s = .refused .noTransmitOutstanding)

/-- R214: the tick that finds TX_BUSY with tx_done clears the latch, releases the line, waits and re-arms, in that order,
and then updates the watchdog (R238, R260; the spec's decisions D19, D20, D22, log entry 9). -/
def Obligations.SentResponseIsCompletedByTheTick : Prop :=
  ∀ (s : State) (t : Timestamp) (rest : List EnvMove),
    s.env = .tick t :: rest → s.phase = .txBusy → s.txDone = true →
    step s = .next { s with
      env := rest, txDone := false, dir := false, phase := .rxArmed,
      trace := s.trace ++ [.setDir false, .delay s.cfg.tTurn, .armRx 256],
      timeoutFlag := timedOut t s.lastPoll }

/-- R284: the receiver is re-armed only by a drop, by the tick that consumes transmit-complete, or by a new init. -/
def Obligations.ReceiverIsRearmedOnlyAfterDropOrSendComplete : Prop :=
  ∀ (s u : State) (n : Nat), step s = .next u → s.trace.count (.armRx n) < u.trace.count (.armRx n) →
    (∃ t rest, s.env = .tick t :: rest ∧ ((s.phase = .txBusy ∧ s.txDone = true)
        ∨ (s.phase = .rxArmed ∧ s.rxDone = true ∧ ∃ r, checkFrame s = some r)))
      ∨ (∃ t0 rest, s.env = .init t0 :: rest)

/-- R285: while a response is in flight none is assembled or handed over; and a validated frame goes from validation to
the transmit call inside its one tick. -/
def Obligations.OneResponseIsInFlight : Prop :=
  (∀ s u : State, step s = .next u → s.phase = .txBusy → (∀ t0 rest, s.env ≠ .init t0 :: rest) →
      u.txBuf = s.txBuf ∧ ∀ f, u.trace.count (.transmit f) = s.trace.count (.transmit f))
    ∧ (∀ (s : State) (t : Timestamp) (rest : List EnvMove), s.env = .tick t :: rest → s.phase = .rxArmed →
      s.rxDone = true → checkFrame s = none →
      ∃ u, step s = .next u ∧ u.phase = .txBusy ∧ u.trace.getLast? = some (.transmit u.txBuf))

/-! ### Initialisation and the invariant -/

/-- `init(t0)` (R280, R281, R282): a new instance of the same configuration, from any state, FAULT included. The values
but the store's are the spec's decisions D6 and D25; that the port trace begins anew is the model's (log entry 4). -/
def Obligations.InitMakesANewInstance : Prop :=
  ∀ (s : State) (t0 : Timestamp) (rest : List EnvMove), s.env = .init t0 :: rest →
    ∃ u, step s = .next u ∧ (∀ a, u.regRead a = 0) ∧ (∀ a, u.coilRead a = false) ∧ (∀ k, u.rxByte k = 0)
      ∧ u.rxLen = 0 ∧ u.rxDone = false ∧ u.txDone = false ∧ u.txBuf = [] ∧ u.dir = false ∧ u.faultReason = none
      ∧ u.lastPoll = t0 ∧ u.timeoutFlag = false ∧ u.trace = [.armRx 256] ∧ u.returns = [] ∧ u.phase = .rxArmed
      ∧ u.cfg = s.cfg ∧ u.env = rest

/-- The invariant holds right after reset, and after `init` of any configuration within the bounds of R5. -/
def Obligations.InvariantHoldsAfterReset : Prop :=
  Inv State.reset ∧ ∀ (cfg : Config) (t0 : Timestamp) (env : List EnvMove), cfg.wf = true → Inv (State.init cfg t0 env)

/-- The invariant is inductive: every step from every state that meets it gives a state that meets it. It says that the
three spaces keep their canonical form and bounds (R31, R32, R35, R71), that the line is driven exactly while a
response is out (R39, R286), that a latch is set only in the phase that waits for it and never both (R252, R254), that
a fault reason stands exactly in FAULT (R41), and that TxBuf fits a frame (R38, R212). -/
def Obligations.EveryStepKeepsTheInvariant : Prop :=
  ∀ s u : State, Inv s → step s = .next u → Inv u
end

