-- ==== Sys2Proof/Laws/Operands.lean ====
section
/-! SUPPORT. What operand assembly, coil packing and the operand checks give. -/

namespace Sys2Proof.Machine

@[simp] theorem getLsbD_hi8 (v : U16) (i : Nat) : (hi8 v).getLsbD i = (decide (i < 8) && v.getLsbD (8 + i)) := by
  simp [hi8]

@[simp] theorem getLsbD_lo8 (v : U16) (i : Nat) : (lo8 v).getLsbD i = (decide (i < 8) && v.getLsbD i) := by
  simp [lo8]

/-- A big-endian field is its two bytes, high byte first. -/
theorem be16_eq_append (rd : Nat → Byte) (k : Nat) : be16 rd k = rd k ++ rd (k + 1) := by
  apply BitVec.eq_of_getLsbD_eq
  intro i hi
  rw [BitVec.getLsbD_append]
  by_cases h : i < 8
  · simp [be16, h, hi]
  · have h2 : (rd (k + 1)).getLsbD i = false := BitVec.getLsbD_of_ge _ _ (by omega)
    simp [be16, h, hi, h2]

@[simp] theorem hi8_be16 (rd : Nat → Byte) (k : Nat) : hi8 (be16 rd k) = rd k := by
  apply BitVec.eq_of_getLsbD_eq
  intro i hi
  rw [getLsbD_hi8, be16_eq_append, BitVec.getLsbD_append]
  simp [hi]

@[simp] theorem lo8_be16 (rd : Nat → Byte) (k : Nat) : lo8 (be16 rd k) = rd (k + 1) := by
  apply BitVec.eq_of_getLsbD_eq
  intro i hi
  rw [getLsbD_lo8, be16_eq_append, BitVec.getLsbD_append]
  simp [hi]

/-- A u16 is assembled from its own bytes. -/
theorem be16_of_bytes (rd : Nat → Byte) (k : Nat) (v : U16) (h1 : rd k = hi8 v) (h2 : rd (k + 1) = lo8 v) :
    be16 rd k = v := by
  rw [be16_eq_append, h1, h2]
  apply BitVec.eq_of_getLsbD_eq
  intro i hi
  rw [BitVec.getLsbD_append]
  by_cases h : i < 8
  · rw [getLsbD_lo8]; simp [h]
  · have h3 : 8 + (i - 8) = i := by omega
    have h4 : i - 8 < 8 := by omega
    rw [getLsbD_hi8, h3]; simp [h, h4]

@[simp] theorem getLsbD_packCoilByte (coil : Nat → Bool) (n j i : Nat) :
    (packCoilByte coil n j).getLsbD i
      = (decide (i < 8) && (decide (8 * j + i < n) && coil (8 * j + i))) := by
  by_cases h : i < 8
  · rw [packCoilByte, BitVec.getLsbD_eq_getElem h, BitVec.getElem_ofFnLE]; simp [h]
  · have : (packCoilByte coil n j).getLsbD i = false := BitVec.getLsbD_of_ge _ _ (by omega)
    simp [this, h]

@[simp] theorem length_packCoils (coil : Nat → Bool) (n : Nat) : (packCoils coil n).length = coilBytes n := by
  simp [packCoils]

theorem getElem_packCoils (coil : Nat → Bool) (n j : Nat) (h : j < (packCoils coil n).length) :
    (packCoils coil n)[j] = packCoilByte coil n j := by
  simp [packCoils]

@[simp] theorem length_byteBits (b : Byte) : (byteBits b).length = 8 := rfl

theorem length_flatMap_byteBits (data : List Byte) : (data.flatMap byteBits).length = 8 * data.length := by
  induction data with
  | nil => rfl
  | cons b bs ih => simp [ih]; omega

theorem getElem?_flatMap_byteBits (data : List Byte) (k : Nat) :
    (data.flatMap byteBits)[k]? = (data[k / 8]?).map fun b => b.getLsbD (k % 8) := by
  induction data generalizing k with
  | nil => simp
  | cons b bs ih =>
    rw [List.flatMap_cons]
    by_cases h : k < 8
    · rw [List.getElem?_append_left (by simpa using h)]
      simp [byteBits, Nat.div_eq_of_lt h, Nat.mod_eq_of_lt h, h]
    · rw [List.getElem?_append_right (by simpa using h), ih]
      have e : k / 8 = (k - 8) / 8 + 1 := by omega
      have e2 : (k - 8) % 8 = k % 8 := by omega
      simp [e, e2]

/-- Enough DATA gives a bit for every coil of the range. -/
theorem length_unpackCoils (data : List Byte) (n : Nat) (h : n ≤ 8 * data.length) :
    (unpackCoils data n).length = n := by
  rw [unpackCoils, List.length_take, length_flatMap_byteBits]; omega

/-- Coil k of packed DATA is bit `k mod 8` of byte `k div 8`. -/
theorem getElem?_unpackCoils (data : List Byte) (n k : Nat) :
    (unpackCoils data n)[k]? = if k < n then (data[k / 8]?).map fun b => b.getLsbD (k % 8) else none := by
  rw [unpackCoils, List.getElem?_take, getElem?_flatMap_byteBits]

@[simp] theorem length_registerBytes (vs : List U16) : (registerBytes vs).length = 2 * vs.length := by
  induction vs with
  | nil => rfl
  | cons v vs ih => simp only [registerBytes, List.flatMap_cons] at *; simp [ih]; omega

theorem registerBytes_cons (v : U16) (vs : List U16) : registerBytes (v :: vs) = hi8 v :: lo8 v :: registerBytes vs :=
  rfl

/-- Register k of the data is its high byte and then its low byte. -/
theorem getElem?_registerBytes (vs : List U16) (k : Nat) :
    (registerBytes vs)[2 * k]? = (vs[k]?).map hi8 ∧ (registerBytes vs)[2 * k + 1]? = (vs[k]?).map lo8 := by
  induction vs generalizing k with
  | nil => simp [registerBytes]
  | cons v vs ih =>
    rw [registerBytes_cons]
    cases k with
    | zero => simp
    | succ k =>
      rw [show 2 * (k + 1) = 2 * k + 1 + 1 by omega]
      simpa using ih k

/-- The range checks pass exactly for a count in [1, max] whose last slot is backed. -/
theorem rangeError_eq_none (max cap : Nat) (c : ExcCode) (start count : U16) :
    rangeError max cap c start count = none
      ↔ 1 ≤ count.toNat ∧ count.toNat ≤ max ∧ start.toNat + count.toNat ≤ cap := by
  unfold rangeError
  split
  · simp; omega
  · split <;> simp <;> omega

/-- A range check raises ILLEGAL_DATA_VALUE or the range's own code. -/
theorem rangeError_eq_some (max cap : Nat) (c e : ExcCode) (start count : U16)
    (h : rangeError max cap c start count = some e) : e = .illegalDataValue ∨ e = c := by
  unfold rangeError at h
  split at h
  · exact .inl (by simpa using h.symm)
  · split at h
    · exact .inr (by simpa using h.symm)
    · simp at h

theorem slotError_eq_none (cap : Nat) (readOnly : Nat → Bool) (address : U16) :
    slotError cap readOnly address = none ↔ address.toNat < cap ∧ readOnly address.toNat = false := by
  unfold slotError
  split
  · simp; omega
  · split
    · rename_i h; simp [h]
    · rename_i h; simp_all

theorem slotError_eq_some (cap : Nat) (readOnly : Nat → Bool) (address : U16) (e : ExcCode)
    (h : slotError cap readOnly address = some e) : e = .illegalDataAddress := by
  unfold slotError at h
  split at h
  · simpa using h.symm
  · split at h
    · simpa using h.symm
    · simp at h

/-- A bad count is ILLEGAL_DATA_VALUE, whatever the range. -/
theorem rangeError_of_count (max cap : Nat) (c : ExcCode) (start count : U16)
    (h : ¬(1 ≤ count.toNat ∧ count.toNat ≤ max)) :
    rangeError max cap c start count = some .illegalDataValue := by
  unfold rangeError; rw [if_pos (by omega)]

/-- A good count with a range beyond the file is the range code. -/
theorem rangeError_of_range (max cap : Nat) (c : ExcCode) (start count : U16) (h1 : 1 ≤ count.toNat)
    (h2 : count.toNat ≤ max) (h3 : cap < start.toNat + count.toNat) :
    rangeError max cap c start count = some c := by
  unfold rangeError; rw [if_neg (by omega), if_pos (by omega)]

/-- A slot out of bounds or read-only is ILLEGAL_DATA_ADDRESS. -/
theorem slotError_of_bad (cap : Nat) (ro : Nat → Bool) (a : U16) (h : cap ≤ a.toNat ∨ ro a.toNat = true) :
    slotError cap ro a = some .illegalDataAddress := by
  unfold slotError
  split
  · rfl
  · rw [if_pos (h.resolve_left ‹_›)]

end Sys2Proof.Machine
end

