-- ==== Sys2Proof/Laws/Crc.lean ====
section
/-! SUPPORT. The small lemmas of the CRC codec and of sealed frames. -/

namespace Sys2Proof.Machine

@[simp] theorem length_crcWire (c : U16) : (crcWire c).length = 2 := rfl

@[simp] theorem length_sealFrame (addr : Byte) (pdu : List Byte) : (sealFrame addr pdu).length = pdu.length + 3 := by
  simp [sealFrame]

@[simp] theorem crc16_nil : crc16 [] = 0xFFFF#16 := rfl

theorem crc16_append_singleton (s : List Byte) (b : Byte) : crc16 (s ++ [b]) = crcByte (crc16 s) b := by
  simp [crc16]

/-- Byte k of a sealed frame, before its CRC: the address, then the PDU. -/
theorem getElem?_sealFrame (addr : Byte) (pdu : List Byte) (k : Nat) (h : k < pdu.length + 1) :
    (sealFrame addr pdu)[k]? = (addr :: pdu)[k]? := by
  rw [sealFrame, List.getElem?_append_left (by simpa using h)]

/-- `verify` compares the last two bytes with the CRC of all others. -/
theorem verify_append (body : List Byte) (lo hi : Byte) :
    verify (body ++ [lo, hi]) = some (decide (lo = lo8 (crc16 body) ∧ hi = hi8 (crc16 body))) := by
  have h : ¬ (body ++ [lo, hi]).length < 2 := by simp
  rw [verify, if_neg h]
  have e : (body ++ [lo, hi]).length - 2 = body.length := by simp
  rw [e, List.drop_left, List.take_left]
  simp only [crcWire]
  congr 1
  rw [Bool.eq_iff_iff]
  simp

end Sys2Proof.Machine
end

