-- ==== Sys2Proof/Laws/WellFormed.lean ====
section
/-! SUPPORT. When an instruction is well formed, as arithmetic. -/

namespace Sys2Proof

@[simp] theorem wf_readCoils (start count : U16) : (Instr.readCoils start count).wf = true := rfl
@[simp] theorem wf_readDiscreteInputs (start count : U16) : (Instr.readDiscreteInputs start count).wf = true := rfl
@[simp] theorem wf_readHoldingRegisters (start count : U16) :
    (Instr.readHoldingRegisters start count).wf = true := rfl
@[simp] theorem wf_readInputRegisters (start count : U16) : (Instr.readInputRegisters start count).wf = true := rfl
@[simp] theorem wf_writeSingleCoil (address : U16) (value4 value5 : Byte) :
    (Instr.writeSingleCoil address value4 value5).wf = true := rfl
@[simp] theorem wf_writeSingleRegister (address value : U16) :
    (Instr.writeSingleRegister address value).wf = true := rfl

/-- DATA holds one byte for every eight coils, and the frame fits (R94). -/
@[simp] theorem wf_writeMultipleCoils (start count : U16) (byteCount : Byte) (data : List Byte) :
    (Instr.writeMultipleCoils start count byteCount data).wf = true
      ↔ data.length = (count.toNat + 7) / 8 ∧ (count.toNat + 7) / 8 ≤ 247 := by
  simp only [Instr.wf, Bool.and_eq_true, beq_iff_eq, decide_eq_true_eq]
  simp only [Instr.frameLength, Instr.dataBytes, frameMax]
  omega

/-- DATA holds one value for every register, and the frame fits (R94). -/
@[simp] theorem wf_writeMultipleRegisters (start count : U16) (byteCount : Byte) (values : List U16) :
    (Instr.writeMultipleRegisters start count byteCount values).wf = true
      ↔ values.length = count.toNat ∧ count.toNat ≤ 123 := by
  simp only [Instr.wf, Bool.and_eq_true, beq_iff_eq, decide_eq_true_eq]
  simp only [Instr.frameLength, Instr.dataBytes, frameMax]
  omega

end Sys2Proof
end

