-- ==== Sys2Proof/Laws/Decode.lean ====
section
/-! SUPPORT. What the decoder can answer, and which bytes the fields it reads are. -/

namespace Sys2Proof

open Sys2Proof.Machine

theorem byte_eq_of_toNat (b : Byte) (n : Nat) (h : b.toNat = n) : b = BitVec.ofNat 8 n := by
  apply BitVec.eq_of_toNat_eq; simp [← h]

/-- The function-code map R100, case by case: one of the eight codes with its instruction, or any other code. -/
theorem decode_cases (rd : Nat → Byte) :
    (rd 1 = 0x01#8 ∧ decode rd = .instr (.readCoils (be16 rd 2) (be16 rd 4)))
    ∨ (rd 1 = 0x02#8 ∧ decode rd = .instr (.readDiscreteInputs (be16 rd 2) (be16 rd 4)))
    ∨ (rd 1 = 0x03#8 ∧ decode rd = .instr (.readHoldingRegisters (be16 rd 2) (be16 rd 4)))
    ∨ (rd 1 = 0x04#8 ∧ decode rd = .instr (.readInputRegisters (be16 rd 2) (be16 rd 4)))
    ∨ (rd 1 = 0x05#8 ∧ decode rd = .instr (.writeSingleCoil (be16 rd 2) (rd 4) (rd 5)))
    ∨ (rd 1 = 0x06#8 ∧ decode rd = .instr (.writeSingleRegister (be16 rd 2) (be16 rd 4)))
    ∨ (rd 1 = 0x0F#8 ∧ decode rd
        = .instr (.writeMultipleCoils (be16 rd 2) (be16 rd 4) (rd 6) (coilData rd (be16 rd 4))))
    ∨ (rd 1 = 0x10#8 ∧ decode rd
        = .instr (.writeMultipleRegisters (be16 rd 2) (be16 rd 4) (rd 6) (registerData rd (be16 rd 4))))
    ∨ (rd 1 ∉ ([0x01#8, 0x02#8, 0x03#8, 0x04#8, 0x05#8, 0x06#8, 0x0F#8, 0x10#8] : List Byte)
        ∧ decode rd = .illegalFunction (rd 1)) := by
  unfold decode
  split
  case h_9 =>
    simp only [List.mem_cons, List.not_mem_nil, or_false, not_or]
    refine .inr (.inr (.inr (.inr (.inr (.inr (.inr (.inr ⟨⟨?_, ?_, ?_, ?_, ?_, ?_, ?_, ?_⟩, trivial⟩))))))) <;>
      (intro h; simp_all)
  all_goals (rename_i h; simp [byte_eq_of_toNat _ _ h])

/-- Data byte j of FC 0x0F stands at offset `7 + j`. -/
theorem eq_of_getElem?_coilData (rd : Nat → Byte) (count : U16) (j : Nat) (b : Byte)
    (h : (coilData rd count)[j]? = some b) : b = rd (7 + j) := by
  obtain ⟨x, hx, rfl⟩ := Option.map_eq_some_iff.mp (List.getElem?_map .. ▸ h)
  obtain ⟨_, rfl⟩ := List.getElem?_eq_some_iff.mp hx
  simp

/-- Register value k of FC 0x10 is the big-endian field at offset `7 + 2k`. -/
theorem eq_of_getElem?_registerData (rd : Nat → Byte) (count : U16) (k : Nat) (v : U16)
    (h : (registerData rd count)[k]? = some v) : v = be16 rd (7 + 2 * k) := by
  obtain ⟨x, hx, rfl⟩ := Option.map_eq_some_iff.mp (List.getElem?_map .. ▸ h)
  obtain ⟨_, rfl⟩ := List.getElem?_eq_some_iff.mp hx
  simp

/-- A count in range finds all its coil DATA in the frame buffer. -/
theorem length_coilData (rd : Nat → Byte) (count : U16) (h : count.toNat ≤ maxCoil) :
    (coilData rd count).length = coilBytes count.toNat := by
  simp only [maxCoil] at h
  simp only [coilData, dataRoom, coilBytes, List.length_map, List.length_range]; omega

/-- A count in range finds all its register values in the frame buffer. -/
theorem length_registerData (rd : Nat → Byte) (count : U16) (h : count.toNat ≤ maxReg) :
    (registerData rd count).length = count.toNat := by
  simp only [maxReg] at h
  simp only [registerData, dataRoom, List.length_map, List.length_range]; omega

end Sys2Proof
end

