-- ==== Sys2Proof/Laws/Memory.lean ====
section
/-! SUPPORT. The laws of memory: a read after a write, the canonical form, the bounds of the listed addresses, and
what the write loop does. -/

namespace Sys2Proof.Machine

variable {α : Type}

@[simp] theorem memRead_nil (d : α) (a : Nat) : memRead d [] a = d := rfl

theorem memRead_memErase (d : α) (m : Mem α) (a b : Nat) :
    memRead d (memErase m a) b = if b = a then d else memRead d m b := by
  induction m with
  | nil => simp [memErase]
  | cons p rest ih =>
    obtain ⟨k, v⟩ := p
    by_cases hk : k = a
    · subst hk
      have h : memErase ((k, v) :: rest) k = memErase rest k := by simp [memErase]
      rw [h, ih]
      by_cases hb : b = k
      · simp [hb]
      · simp [memRead, hb, Ne.symm hb]
    · have h : memErase ((k, v) :: rest) a = (k, v) :: memErase rest a := by simp [memErase, hk]
      rw [h]
      by_cases hb : k = b
      · subst hb; simp [memRead, hk]
      · simp [memRead, hb, ih]

theorem memRead_memInsert (d : α) (m : Mem α) (a b : Nat) (v : α) (hm : ∀ p ∈ m, p.1 ≠ a) :
    memRead d (memInsert m a v) b = if b = a then v else memRead d m b := by
  induction m with
  | nil =>
    by_cases hb : b = a
    · simp [memInsert, memRead, hb]
    · simp [memInsert, memRead, hb, Ne.symm hb]
  | cons p rest ih =>
    obtain ⟨k, w⟩ := p
    have hk : k ≠ a := hm (k, w) (by simp)
    have ih' := ih fun p hp => hm p (by simp [hp])
    unfold memInsert
    split
    · by_cases hb : b = a
      · simp [memRead, hb]
      · simp [memRead, hb, Ne.symm hb]
    · by_cases hb : k = b
      · subst hb; simp [memRead, hk]
      · simp [memRead, hb, ih']

theorem memErase_ne (m : Mem α) (a : Nat) : ∀ p ∈ memErase m a, p.1 ≠ a := by
  intro p hp; simpa using (List.mem_filter.mp hp).2

/-- A read after a write gives the value written at its address and the old value elsewhere, on any list. -/
@[simp] theorem memRead_memWrite [DecidableEq α] (d : α) (m : Mem α) (a b : Nat) (v : α) :
    memRead d (memWrite d m a v) b = if b = a then v else memRead d m b := by
  unfold memWrite
  split
  · rename_i h; rw [memRead_memErase, h]
  · rw [memRead_memInsert d _ a b v (memErase_ne m a), memRead_memErase]; simp +contextual

theorem memInsert_mem {m : Mem α} {a : Nat} {v : α} {p : Nat × α} (h : p ∈ memInsert m a v) :
    p = (a, v) ∨ p ∈ m := by
  induction m with
  | nil => simpa [memInsert] using h
  | cons q rest ih =>
    obtain ⟨k, w⟩ := q
    unfold memInsert at h
    split at h
    · simpa using h
    · rcases List.mem_cons.mp h with h | h
      · exact .inr (by simp [h])
      · exact (ih h).imp id fun h => by simp [h]

/-- A write lists no address but its own and those listed before. -/
theorem memWrite_mem [DecidableEq α] {d : α} {m : Mem α} {a : Nat} {v : α} {p : Nat × α}
    (h : p ∈ memWrite d m a v) : p = (a, v) ∨ p ∈ m := by
  unfold memWrite at h
  split at h
  · exact .inr (List.mem_filter.mp h).1
  · exact (memInsert_mem h).imp id fun h => (List.mem_filter.mp h).1

theorem memWrite_below [DecidableEq α] {d : α} {m : Mem α} {a n : Nat} {v : α} (hm : ∀ p ∈ m, p.1 < n)
    (ha : a < n) : ∀ p ∈ memWrite d m a v, p.1 < n := by
  intro p hp
  rcases memWrite_mem hp with h | h
  · simpa [h] using ha
  · exact hm p h

@[simp] theorem memory_wf_nil [DecidableEq α] (d : α) : Memory.wf d ([] : Mem α) = true := rfl

theorem memory_wf_cons [DecidableEq α] (d : α) (k : Nat) (v : α) (rest : Mem α) :
    Memory.wf d ((k, v) :: rest) = true ↔ v ≠ d ∧ (∀ p ∈ rest, k < p.1) ∧ Memory.wf d rest = true := by
  simp [Memory.wf, and_assoc]

theorem memErase_wf [DecidableEq α] (d : α) (m : Mem α) (a : Nat) (h : Memory.wf d m = true) :
    Memory.wf d (memErase m a) = true := by
  induction m with
  | nil => rfl
  | cons p rest ih =>
    obtain ⟨k, v⟩ := p
    obtain ⟨h1, h2, h3⟩ := (memory_wf_cons ..).mp h
    by_cases hk : k = a
    · simpa [memErase, hk] using ih h3
    · have : memErase ((k, v) :: rest) a = (k, v) :: memErase rest a := by simp [memErase, hk]
      rw [this, memory_wf_cons]
      exact ⟨h1, fun p hp => h2 p (List.mem_filter.mp hp).1, ih h3⟩

theorem memInsert_wf [DecidableEq α] (d : α) (m : Mem α) (a : Nat) (v : α) (h : Memory.wf d m = true)
    (hv : v ≠ d) (hm : ∀ p ∈ m, p.1 ≠ a) : Memory.wf d (memInsert m a v) = true := by
  induction m with
  | nil => simpa [memInsert, memory_wf_cons] using hv
  | cons p rest ih =>
    obtain ⟨k, w⟩ := p
    obtain ⟨h1, h2, h3⟩ := (memory_wf_cons ..).mp h
    have hk : k ≠ a := hm (k, w) (by simp)
    unfold memInsert
    split
    · rename_i hlt
      rw [memory_wf_cons]
      refine ⟨hv, ?_, h⟩
      intro p hp
      rcases List.mem_cons.mp hp with rfl | hp
      · exact hlt
      · exact lt_trans hlt (h2 p hp)
    · rename_i hlt
      rw [memory_wf_cons]
      refine ⟨h1, ?_, ih h3 fun p hp => hm p (by simp [hp])⟩
      intro p hp
      rcases memInsert_mem hp with rfl | hp
      · show k < a; omega
      · exact h2 p hp

/-- Every write keeps the canonical form. -/
theorem memWrite_wf [DecidableEq α] (d : α) (m : Mem α) (a : Nat) (v : α) (h : Memory.wf d m = true) :
    Memory.wf d (memWrite d m a v) = true := by
  unfold memWrite
  split
  · exact memErase_wf d m a h
  · rename_i hv; exact memInsert_wf d _ a v (memErase_wf d m a h) hv (memErase_ne m a)

theorem memWriteList_wf [DecidableEq α] (d : α) (vs : List α) (m : Mem α) (a : Nat) (h : Memory.wf d m = true) :
    Memory.wf d (memWriteList d m a vs) = true := by
  induction vs generalizing m a with
  | nil => exact h
  | cons v vs ih => exact ih _ _ (memWrite_wf d m a v h)

theorem memWriteList_below [DecidableEq α] {d : α} {n : Nat} (vs : List α) (m : Mem α) (a : Nat)
    (hm : ∀ p ∈ m, p.1 < n) (ha : a + vs.length ≤ n) : ∀ p ∈ memWriteList d m a vs, p.1 < n := by
  induction vs generalizing m a with
  | nil => exact hm
  | cons v vs ih =>
    simp only [List.length_cons] at ha
    exact ih _ _ (memWrite_below hm (by omega)) (by omega)

/-- A block write puts value k at `a + k` and leaves every other address alone. -/
theorem memRead_memWriteList [DecidableEq α] (d : α) (vs : List α) (m : Mem α) (a b : Nat) :
    memRead d (memWriteList d m a vs) b = if a ≤ b then (vs[b - a]?).getD (memRead d m b) else memRead d m b := by
  induction vs generalizing m a with
  | nil => simp [memWriteList]
  | cons v vs ih =>
    rw [memWriteList, ih, memRead_memWrite]
    rcases lt_trichotomy a b with h | h | h
    · obtain ⟨k, rfl⟩ := Nat.exists_eq_add_of_lt h
      have e1 : a + k + 1 - (a + 1) = k := by omega
      have e2 : a + k + 1 - a = k + 1 := by omega
      have e3 : a + k + 1 ≠ a := by omega
      have e4 : a + 1 ≤ a + k + 1 := by omega
      have e5 : a ≤ a + k + 1 := by omega
      rw [e1, e2, if_pos e4, if_pos e5, if_neg e3, List.getElem?_cons_succ]
    · subst h; simp
    · have e1 : ¬ a + 1 ≤ b := by omega
      have e2 : ¬ a ≤ b := by omega
      have e3 : b ≠ a := by omega
      simp [e1, e2, e3]

/-- A block write changes only slots of its block: below the bound and writable where the block is. -/
theorem memWriteList_changed [DecidableEq α] (d : α) (m m' : Mem α) (n : Nat) (ro : Nat → Bool)
    (h : ∃ a vs, m' = memWriteList d m a vs ∧ a + vs.length ≤ n ∧ ∀ k, k < vs.length → ro (a + k) = false)
    (b : Nat) (hne : memRead d m' b ≠ memRead d m b) : b < n ∧ ro b = false := by
  obtain ⟨a, vs, rfl, hl, hro⟩ := h
  rw [memRead_memWriteList] at hne
  split at hne
  · by_cases hb : b - a < vs.length
    · have := hro (b - a) hb
      rw [show a + (b - a) = b by omega] at this
      exact ⟨by omega, this⟩
    · rw [List.getElem?_eq_none (by omega)] at hne
      exact absurd rfl hne
  · exact absurd rfl hne

/-- A block write of the first n values: what stands in the block and outside it. -/
theorem memWriteList_take [DecidableEq α] (d : α) (m : Mem α) (a n : Nat) (vs : List α) :
    (∀ k v, k < n → vs[k]? = some v → memRead d (memWriteList d m a (vs.take n)) (a + k) = v)
      ∧ (n ≤ vs.length → ∀ b, b < a ∨ a + n ≤ b →
          memRead d (memWriteList d m a (vs.take n)) b = memRead d m b) := by
  constructor
  · intro k v hk hv
    rw [memRead_memWriteList, if_pos (by omega), List.getElem?_take, if_pos (by omega)]
    simp [hv]
  · intro hn b hb
    rw [memRead_memWriteList]
    split
    · rw [List.getElem?_eq_none (by simp; omega)]; rfl
    · rfl

/-- How many values the write loop writes: those before the first read-only slot (R192). -/
def writableCount (readOnly : Nat → Bool) : Nat → Nat → Nat
  | _, 0 => 0
  | a, n + 1 => if readOnly a then 0 else writableCount readOnly (a + 1) n + 1

theorem writableCount_le (readOnly : Nat → Bool) (a n : Nat) : writableCount readOnly a n ≤ n := by
  induction n generalizing a with
  | zero => simp [writableCount]
  | succ n ih =>
    unfold writableCount
    split
    · omega
    · have := ih (a + 1); omega

/-- Every slot before the count is writable. -/
theorem writable_of_lt_writableCount (readOnly : Nat → Bool) (a n k : Nat)
    (h : k < writableCount readOnly a n) : readOnly (a + k) = false := by
  induction n generalizing a k with
  | zero => simp [writableCount] at h
  | succ n ih =>
    unfold writableCount at h
    split at h
    · omega
    · rename_i ha
      cases k with
      | zero => simpa using ha
      | succ k =>
        have := ih (a + 1) k (by omega)
        rwa [show a + (k + 1) = a + 1 + k by omega]

/-- The count is the whole range, or the slot at the count is the first read-only one. -/
theorem writableCount_stop (readOnly : Nat → Bool) (a n : Nat) :
    writableCount readOnly a n = n ∨ readOnly (a + writableCount readOnly a n) = true := by
  induction n generalizing a with
  | zero => simp [writableCount]
  | succ n ih =>
    by_cases ha : readOnly a
    · exact .inr (by simp [writableCount, ha])
    · rcases ih (a + 1) with h | h
      · exact .inl (by simp [writableCount, ha, h])
      · refine .inr ?_
        have e : writableCount readOnly a (n + 1) = writableCount readOnly (a + 1) n + 1 := by
          simp [writableCount, ha]
        rw [e, show a + (writableCount readOnly (a + 1) n + 1) = a + 1 + writableCount readOnly (a + 1) n by omega]
        exact h

theorem writableCount_eq_of_writable (readOnly : Nat → Bool) (a n : Nat)
    (h : ∀ k, k < n → readOnly (a + k) = false) : writableCount readOnly a n = n := by
  rcases writableCount_stop readOnly a n with h' | h'
  · exact h'
  · by_contra hne
    have hlt : writableCount readOnly a n < n := lt_of_le_of_ne (writableCount_le ..) hne
    simp [h _ hlt] at h'

/-- Where the first read-only slot of a range stands, the write loop stops. -/
theorem writableCount_of_first (ro : Nat → Bool) (a n j : Nat) (hj : j < n)
    (h : ∀ k, k < j → ro (a + k) = false) (hs : ro (a + j) = true) : writableCount ro a n = j := by
  rcases Nat.lt_trichotomy (writableCount ro a n) j with hlt | heq | hgt
  · rcases writableCount_stop ro a n with h' | h'
    · omega
    · rw [h _ hlt] at h'; cases h'
  · exact heq
  · rw [writable_of_lt_writableCount ro a n j hgt] at hs; cases hs

/-- Everything the write loop does: it is a block write of the values before the first read-only slot, and it
finishes when there is none. -/
theorem writeSlots_eq [DecidableEq α] (d : α) (readOnly : Nat → Bool) (vs : List α) (m : Mem α) (a : Nat) :
    writeSlots d readOnly m a vs
      = (memWriteList d m a (vs.take (writableCount readOnly a vs.length)),
          decide (writableCount readOnly a vs.length = vs.length)) := by
  induction vs generalizing m a with
  | nil => simp [writeSlots, memWriteList, writableCount]
  | cons v vs ih =>
    by_cases ha : readOnly a
    · simp [writeSlots, ha, writableCount, memWriteList]
    · simp [writeSlots, ha, writableCount, memWriteList, ih]

end Sys2Proof.Machine
end

