-- ==== Sys2Proof/Laws/State.lean ====
section
/-! SUPPORT. Each update of the state, field by field, so that no proof unfolds a record update. -/

namespace Sys2Proof.Machine

variable (s : State)

/-! ### A register write (R31) -/

@[simp] theorem regWrite_cfg (a : Nat) (v : U16) : (s.regWrite a v).cfg = s.cfg := rfl
@[simp] theorem regWrite_reg (a : Nat) (v : U16) : (s.regWrite a v).reg = memWrite 0#16 s.reg a v := rfl
@[simp] theorem regWrite_coil (a : Nat) (v : U16) : (s.regWrite a v).coil = s.coil := rfl
@[simp] theorem regWrite_rx (a : Nat) (v : U16) : (s.regWrite a v).rx = s.rx := rfl
@[simp] theorem regWrite_rxLen (a : Nat) (v : U16) : (s.regWrite a v).rxLen = s.rxLen := rfl
@[simp] theorem regWrite_rxDone (a : Nat) (v : U16) : (s.regWrite a v).rxDone = s.rxDone := rfl
@[simp] theorem regWrite_txDone (a : Nat) (v : U16) : (s.regWrite a v).txDone = s.txDone := rfl
@[simp] theorem regWrite_txBuf (a : Nat) (v : U16) : (s.regWrite a v).txBuf = s.txBuf := rfl
@[simp] theorem regWrite_dir (a : Nat) (v : U16) : (s.regWrite a v).dir = s.dir := rfl
@[simp] theorem regWrite_phase (a : Nat) (v : U16) : (s.regWrite a v).phase = s.phase := rfl
@[simp] theorem regWrite_faultReason (a : Nat) (v : U16) : (s.regWrite a v).faultReason = s.faultReason := rfl
@[simp] theorem regWrite_lastPoll (a : Nat) (v : U16) : (s.regWrite a v).lastPoll = s.lastPoll := rfl
@[simp] theorem regWrite_timeoutFlag (a : Nat) (v : U16) : (s.regWrite a v).timeoutFlag = s.timeoutFlag := rfl
@[simp] theorem regWrite_env (a : Nat) (v : U16) : (s.regWrite a v).env = s.env := rfl
@[simp] theorem regWrite_trace (a : Nat) (v : U16) : (s.regWrite a v).trace = s.trace := rfl
@[simp] theorem regWrite_returns (a : Nat) (v : U16) : (s.regWrite a v).returns = s.returns := rfl

/-! ### A coil write (R32) -/

@[simp] theorem coilWrite_cfg (a : Nat) (b : Bool) : (s.coilWrite a b).cfg = s.cfg := rfl
@[simp] theorem coilWrite_reg (a : Nat) (b : Bool) : (s.coilWrite a b).reg = s.reg := rfl
@[simp] theorem coilWrite_coil (a : Nat) (b : Bool) : (s.coilWrite a b).coil = memWrite false s.coil a b := rfl
@[simp] theorem coilWrite_rx (a : Nat) (b : Bool) : (s.coilWrite a b).rx = s.rx := rfl
@[simp] theorem coilWrite_rxLen (a : Nat) (b : Bool) : (s.coilWrite a b).rxLen = s.rxLen := rfl
@[simp] theorem coilWrite_rxDone (a : Nat) (b : Bool) : (s.coilWrite a b).rxDone = s.rxDone := rfl
@[simp] theorem coilWrite_txDone (a : Nat) (b : Bool) : (s.coilWrite a b).txDone = s.txDone := rfl
@[simp] theorem coilWrite_txBuf (a : Nat) (b : Bool) : (s.coilWrite a b).txBuf = s.txBuf := rfl
@[simp] theorem coilWrite_dir (a : Nat) (b : Bool) : (s.coilWrite a b).dir = s.dir := rfl
@[simp] theorem coilWrite_phase (a : Nat) (b : Bool) : (s.coilWrite a b).phase = s.phase := rfl
@[simp] theorem coilWrite_faultReason (a : Nat) (b : Bool) : (s.coilWrite a b).faultReason = s.faultReason := rfl
@[simp] theorem coilWrite_lastPoll (a : Nat) (b : Bool) : (s.coilWrite a b).lastPoll = s.lastPoll := rfl
@[simp] theorem coilWrite_timeoutFlag (a : Nat) (b : Bool) : (s.coilWrite a b).timeoutFlag = s.timeoutFlag := rfl
@[simp] theorem coilWrite_env (a : Nat) (b : Bool) : (s.coilWrite a b).env = s.env := rfl
@[simp] theorem coilWrite_trace (a : Nat) (b : Bool) : (s.coilWrite a b).trace = s.trace := rfl
@[simp] theorem coilWrite_returns (a : Nat) (b : Bool) : (s.coilWrite a b).returns = s.returns := rfl

/-! ### Port events emitted (R266) -/

@[simp] theorem emit_cfg (es : List PortEvent) : (s.emit es).cfg = s.cfg := rfl
@[simp] theorem emit_reg (es : List PortEvent) : (s.emit es).reg = s.reg := rfl
@[simp] theorem emit_coil (es : List PortEvent) : (s.emit es).coil = s.coil := rfl
@[simp] theorem emit_rx (es : List PortEvent) : (s.emit es).rx = s.rx := rfl
@[simp] theorem emit_rxLen (es : List PortEvent) : (s.emit es).rxLen = s.rxLen := rfl
@[simp] theorem emit_rxDone (es : List PortEvent) : (s.emit es).rxDone = s.rxDone := rfl
@[simp] theorem emit_txDone (es : List PortEvent) : (s.emit es).txDone = s.txDone := rfl
@[simp] theorem emit_txBuf (es : List PortEvent) : (s.emit es).txBuf = s.txBuf := rfl
@[simp] theorem emit_dir (es : List PortEvent) : (s.emit es).dir = s.dir := rfl
@[simp] theorem emit_phase (es : List PortEvent) : (s.emit es).phase = s.phase := rfl
@[simp] theorem emit_faultReason (es : List PortEvent) : (s.emit es).faultReason = s.faultReason := rfl
@[simp] theorem emit_lastPoll (es : List PortEvent) : (s.emit es).lastPoll = s.lastPoll := rfl
@[simp] theorem emit_timeoutFlag (es : List PortEvent) : (s.emit es).timeoutFlag = s.timeoutFlag := rfl
@[simp] theorem emit_env (es : List PortEvent) : (s.emit es).env = s.env := rfl
@[simp] theorem emit_trace (es : List PortEvent) : (s.emit es).trace = s.trace ++ es := rfl
@[simp] theorem emit_returns (es : List PortEvent) : (s.emit es).returns = s.returns := rfl

/-! ### A host call's value returned (R266) -/

@[simp] theorem giveBack_cfg (v : HostValue) : (s.giveBack v).cfg = s.cfg := rfl
@[simp] theorem giveBack_reg (v : HostValue) : (s.giveBack v).reg = s.reg := rfl
@[simp] theorem giveBack_coil (v : HostValue) : (s.giveBack v).coil = s.coil := rfl
@[simp] theorem giveBack_rx (v : HostValue) : (s.giveBack v).rx = s.rx := rfl
@[simp] theorem giveBack_rxLen (v : HostValue) : (s.giveBack v).rxLen = s.rxLen := rfl
@[simp] theorem giveBack_rxDone (v : HostValue) : (s.giveBack v).rxDone = s.rxDone := rfl
@[simp] theorem giveBack_txDone (v : HostValue) : (s.giveBack v).txDone = s.txDone := rfl
@[simp] theorem giveBack_txBuf (v : HostValue) : (s.giveBack v).txBuf = s.txBuf := rfl
@[simp] theorem giveBack_dir (v : HostValue) : (s.giveBack v).dir = s.dir := rfl
@[simp] theorem giveBack_phase (v : HostValue) : (s.giveBack v).phase = s.phase := rfl
@[simp] theorem giveBack_faultReason (v : HostValue) : (s.giveBack v).faultReason = s.faultReason := rfl
@[simp] theorem giveBack_lastPoll (v : HostValue) : (s.giveBack v).lastPoll = s.lastPoll := rfl
@[simp] theorem giveBack_timeoutFlag (v : HostValue) : (s.giveBack v).timeoutFlag = s.timeoutFlag := rfl
@[simp] theorem giveBack_env (v : HostValue) : (s.giveBack v).env = s.env := rfl
@[simp] theorem giveBack_trace (v : HostValue) : (s.giveBack v).trace = s.trace := rfl
@[simp] theorem giveBack_returns (v : HostValue) : (s.giveBack v).returns = s.returns ++ [v] := rfl

/-! ### The watchdog update (R260) -/

@[simp] theorem watchdogUpdate_cfg (t : Timestamp) : (watchdogUpdate t s).cfg = s.cfg := rfl
@[simp] theorem watchdogUpdate_reg (t : Timestamp) : (watchdogUpdate t s).reg = s.reg := rfl
@[simp] theorem watchdogUpdate_coil (t : Timestamp) : (watchdogUpdate t s).coil = s.coil := rfl
@[simp] theorem watchdogUpdate_rx (t : Timestamp) : (watchdogUpdate t s).rx = s.rx := rfl
@[simp] theorem watchdogUpdate_rxLen (t : Timestamp) : (watchdogUpdate t s).rxLen = s.rxLen := rfl
@[simp] theorem watchdogUpdate_rxDone (t : Timestamp) : (watchdogUpdate t s).rxDone = s.rxDone := rfl
@[simp] theorem watchdogUpdate_txDone (t : Timestamp) : (watchdogUpdate t s).txDone = s.txDone := rfl
@[simp] theorem watchdogUpdate_txBuf (t : Timestamp) : (watchdogUpdate t s).txBuf = s.txBuf := rfl
@[simp] theorem watchdogUpdate_dir (t : Timestamp) : (watchdogUpdate t s).dir = s.dir := rfl
@[simp] theorem watchdogUpdate_phase (t : Timestamp) : (watchdogUpdate t s).phase = s.phase := rfl
@[simp] theorem watchdogUpdate_faultReason (t : Timestamp) : (watchdogUpdate t s).faultReason = s.faultReason := rfl
@[simp] theorem watchdogUpdate_lastPoll (t : Timestamp) : (watchdogUpdate t s).lastPoll = s.lastPoll := rfl
@[simp] theorem watchdogUpdate_timeoutFlag (t : Timestamp) :
    (watchdogUpdate t s).timeoutFlag = timedOut t s.lastPoll := rfl
@[simp] theorem watchdogUpdate_env (t : Timestamp) : (watchdogUpdate t s).env = s.env := rfl
@[simp] theorem watchdogUpdate_trace (t : Timestamp) : (watchdogUpdate t s).trace = s.trace := rfl
@[simp] theorem watchdogUpdate_returns (t : Timestamp) : (watchdogUpdate t s).returns = s.returns := rfl

/-! ### The receive latch consumed (R36) -/

@[simp] theorem consumeRx_cfg : (consumeRx s).cfg = s.cfg := rfl
@[simp] theorem consumeRx_reg : (consumeRx s).reg = s.reg := rfl
@[simp] theorem consumeRx_coil : (consumeRx s).coil = s.coil := rfl
@[simp] theorem consumeRx_rx : (consumeRx s).rx = s.rx := rfl
@[simp] theorem consumeRx_rxLen : (consumeRx s).rxLen = s.rxLen := rfl
@[simp] theorem consumeRx_rxDone : (consumeRx s).rxDone = false := rfl
@[simp] theorem consumeRx_txDone : (consumeRx s).txDone = s.txDone := rfl
@[simp] theorem consumeRx_txBuf : (consumeRx s).txBuf = s.txBuf := rfl
@[simp] theorem consumeRx_dir : (consumeRx s).dir = s.dir := rfl
@[simp] theorem consumeRx_phase : (consumeRx s).phase = s.phase := rfl
@[simp] theorem consumeRx_faultReason : (consumeRx s).faultReason = s.faultReason := rfl
@[simp] theorem consumeRx_lastPoll : (consumeRx s).lastPoll = s.lastPoll := rfl
@[simp] theorem consumeRx_timeoutFlag : (consumeRx s).timeoutFlag = s.timeoutFlag := rfl
@[simp] theorem consumeRx_env : (consumeRx s).env = s.env := rfl
@[simp] theorem consumeRx_trace : (consumeRx s).trace = s.trace := rfl
@[simp] theorem consumeRx_returns : (consumeRx s).returns = s.returns := rfl

/-! ### The transmit latch set (R37) -/

@[simp] theorem latchTx_cfg : (latchTx s).cfg = s.cfg := rfl
@[simp] theorem latchTx_reg : (latchTx s).reg = s.reg := rfl
@[simp] theorem latchTx_coil : (latchTx s).coil = s.coil := rfl
@[simp] theorem latchTx_rx : (latchTx s).rx = s.rx := rfl
@[simp] theorem latchTx_rxLen : (latchTx s).rxLen = s.rxLen := rfl
@[simp] theorem latchTx_rxDone : (latchTx s).rxDone = s.rxDone := rfl
@[simp] theorem latchTx_txDone : (latchTx s).txDone = true := rfl
@[simp] theorem latchTx_txBuf : (latchTx s).txBuf = s.txBuf := rfl
@[simp] theorem latchTx_dir : (latchTx s).dir = s.dir := rfl
@[simp] theorem latchTx_phase : (latchTx s).phase = s.phase := rfl
@[simp] theorem latchTx_faultReason : (latchTx s).faultReason = s.faultReason := rfl
@[simp] theorem latchTx_lastPoll : (latchTx s).lastPoll = s.lastPoll := rfl
@[simp] theorem latchTx_timeoutFlag : (latchTx s).timeoutFlag = s.timeoutFlag := rfl
@[simp] theorem latchTx_env : (latchTx s).env = s.env := rfl
@[simp] theorem latchTx_trace : (latchTx s).trace = s.trace := rfl
@[simp] theorem latchTx_returns : (latchTx s).returns = s.returns := rfl

/-! ### A frame received (R253) -/

@[simp] theorem receive_cfg (bytes : List Byte) : (receive bytes s).cfg = s.cfg := rfl
@[simp] theorem receive_reg (bytes : List Byte) : (receive bytes s).reg = s.reg := rfl
@[simp] theorem receive_coil (bytes : List Byte) : (receive bytes s).coil = s.coil := rfl
@[simp] theorem receive_rx (bytes : List Byte) :
    (receive bytes s).rx = memWriteList 0#8 s.rx 0 (bytes.take frameMax) := rfl
@[simp] theorem receive_rxLen (bytes : List Byte) : (receive bytes s).rxLen = bytes.length := rfl
@[simp] theorem receive_rxDone (bytes : List Byte) : (receive bytes s).rxDone = true := rfl
@[simp] theorem receive_txDone (bytes : List Byte) : (receive bytes s).txDone = s.txDone := rfl
@[simp] theorem receive_txBuf (bytes : List Byte) : (receive bytes s).txBuf = s.txBuf := rfl
@[simp] theorem receive_dir (bytes : List Byte) : (receive bytes s).dir = s.dir := rfl
@[simp] theorem receive_phase (bytes : List Byte) : (receive bytes s).phase = s.phase := rfl
@[simp] theorem receive_faultReason (bytes : List Byte) : (receive bytes s).faultReason = s.faultReason := rfl
@[simp] theorem receive_lastPoll (bytes : List Byte) : (receive bytes s).lastPoll = s.lastPoll := rfl
@[simp] theorem receive_timeoutFlag (bytes : List Byte) : (receive bytes s).timeoutFlag = s.timeoutFlag := rfl
@[simp] theorem receive_env (bytes : List Byte) : (receive bytes s).env = s.env := rfl
@[simp] theorem receive_trace (bytes : List Byte) : (receive bytes s).trace = s.trace := rfl
@[simp] theorem receive_returns (bytes : List Byte) : (receive bytes s).returns = s.returns := rfl

/-! ### The poll time recorded (R131) -/

@[simp] theorem recordPoll_cfg (t : Timestamp) : (recordPoll t s).cfg = s.cfg := rfl
@[simp] theorem recordPoll_reg (t : Timestamp) : (recordPoll t s).reg = s.reg := rfl
@[simp] theorem recordPoll_coil (t : Timestamp) : (recordPoll t s).coil = s.coil := rfl
@[simp] theorem recordPoll_rx (t : Timestamp) : (recordPoll t s).rx = s.rx := rfl
@[simp] theorem recordPoll_rxLen (t : Timestamp) : (recordPoll t s).rxLen = s.rxLen := rfl
@[simp] theorem recordPoll_rxDone (t : Timestamp) : (recordPoll t s).rxDone = s.rxDone := rfl
@[simp] theorem recordPoll_txDone (t : Timestamp) : (recordPoll t s).txDone = s.txDone := rfl
@[simp] theorem recordPoll_txBuf (t : Timestamp) : (recordPoll t s).txBuf = s.txBuf := rfl
@[simp] theorem recordPoll_dir (t : Timestamp) : (recordPoll t s).dir = s.dir := rfl
@[simp] theorem recordPoll_phase (t : Timestamp) : (recordPoll t s).phase = s.phase := rfl
@[simp] theorem recordPoll_faultReason (t : Timestamp) : (recordPoll t s).faultReason = s.faultReason := rfl
@[simp] theorem recordPoll_lastPoll (t : Timestamp) : (recordPoll t s).lastPoll = t := rfl
@[simp] theorem recordPoll_timeoutFlag (t : Timestamp) : (recordPoll t s).timeoutFlag = s.timeoutFlag := rfl
@[simp] theorem recordPoll_env (t : Timestamp) : (recordPoll t s).env = s.env := rfl
@[simp] theorem recordPoll_trace (t : Timestamp) : (recordPoll t s).trace = s.trace := rfl
@[simp] theorem recordPoll_returns (t : Timestamp) : (recordPoll t s).returns = s.returns := rfl

/-! ### A response sent (R211, R213) -/

@[simp] theorem sendResponse_cfg (pdu : List Byte) : (sendResponse pdu s).cfg = s.cfg := rfl
@[simp] theorem sendResponse_reg (pdu : List Byte) : (sendResponse pdu s).reg = s.reg := rfl
@[simp] theorem sendResponse_coil (pdu : List Byte) : (sendResponse pdu s).coil = s.coil := rfl
@[simp] theorem sendResponse_rx (pdu : List Byte) : (sendResponse pdu s).rx = s.rx := rfl
@[simp] theorem sendResponse_rxLen (pdu : List Byte) : (sendResponse pdu s).rxLen = s.rxLen := rfl
@[simp] theorem sendResponse_rxDone (pdu : List Byte) : (sendResponse pdu s).rxDone = s.rxDone := rfl
@[simp] theorem sendResponse_txDone (pdu : List Byte) : (sendResponse pdu s).txDone = s.txDone := rfl
@[simp] theorem sendResponse_txBuf (pdu : List Byte) :
    (sendResponse pdu s).txBuf = sealFrame s.cfg.slaveAddr pdu := rfl
@[simp] theorem sendResponse_dir (pdu : List Byte) : (sendResponse pdu s).dir = true := rfl
@[simp] theorem sendResponse_phase (pdu : List Byte) : (sendResponse pdu s).phase = .txBusy := rfl
@[simp] theorem sendResponse_faultReason (pdu : List Byte) : (sendResponse pdu s).faultReason = s.faultReason := rfl
@[simp] theorem sendResponse_lastPoll (pdu : List Byte) : (sendResponse pdu s).lastPoll = s.lastPoll := rfl
@[simp] theorem sendResponse_timeoutFlag (pdu : List Byte) : (sendResponse pdu s).timeoutFlag = s.timeoutFlag := rfl
@[simp] theorem sendResponse_env (pdu : List Byte) : (sendResponse pdu s).env = s.env := rfl
@[simp] theorem sendResponse_trace (pdu : List Byte) :
    (sendResponse pdu s).trace = s.trace ++ [.delay s.cfg.tTurn, .setDir true, .transmit (sealFrame s.cfg.slaveAddr pdu)] := by simp [sendResponse, driveLine, buildFrame, State.emit, State.toPhase]
@[simp] theorem sendResponse_returns (pdu : List Byte) : (sendResponse pdu s).returns = s.returns := rfl

/-! ### A response completed (R214) -/

@[simp] theorem finishResponse_cfg : (finishResponse s).cfg = s.cfg := rfl
@[simp] theorem finishResponse_reg : (finishResponse s).reg = s.reg := rfl
@[simp] theorem finishResponse_coil : (finishResponse s).coil = s.coil := rfl
@[simp] theorem finishResponse_rx : (finishResponse s).rx = s.rx := rfl
@[simp] theorem finishResponse_rxLen : (finishResponse s).rxLen = s.rxLen := rfl
@[simp] theorem finishResponse_rxDone : (finishResponse s).rxDone = s.rxDone := rfl
@[simp] theorem finishResponse_txDone : (finishResponse s).txDone = false := rfl
@[simp] theorem finishResponse_txBuf : (finishResponse s).txBuf = s.txBuf := rfl
@[simp] theorem finishResponse_dir : (finishResponse s).dir = false := rfl
@[simp] theorem finishResponse_phase : (finishResponse s).phase = .rxArmed := rfl
@[simp] theorem finishResponse_faultReason : (finishResponse s).faultReason = s.faultReason := rfl
@[simp] theorem finishResponse_lastPoll : (finishResponse s).lastPoll = s.lastPoll := rfl
@[simp] theorem finishResponse_timeoutFlag : (finishResponse s).timeoutFlag = s.timeoutFlag := rfl
@[simp] theorem finishResponse_env : (finishResponse s).env = s.env := rfl
@[simp] theorem finishResponse_trace :
    (finishResponse s).trace = s.trace ++ [.setDir false, .delay s.cfg.tTurn, .armRx frameMax] := by simp [finishResponse, driveLine, consumeTx, State.emit, State.toPhase]
@[simp] theorem finishResponse_returns : (finishResponse s).returns = s.returns := rfl

/-! ### A drop (R130) -/

@[simp] theorem drop_cfg : (drop s).cfg = s.cfg := rfl
@[simp] theorem drop_reg : (drop s).reg = s.reg := rfl
@[simp] theorem drop_coil : (drop s).coil = s.coil := rfl
@[simp] theorem drop_rx : (drop s).rx = s.rx := rfl
@[simp] theorem drop_rxLen : (drop s).rxLen = s.rxLen := rfl
@[simp] theorem drop_rxDone : (drop s).rxDone = s.rxDone := rfl
@[simp] theorem drop_txDone : (drop s).txDone = s.txDone := rfl
@[simp] theorem drop_txBuf : (drop s).txBuf = s.txBuf := rfl
@[simp] theorem drop_dir : (drop s).dir = s.dir := rfl
@[simp] theorem drop_phase : (drop s).phase = s.phase := rfl
@[simp] theorem drop_faultReason : (drop s).faultReason = s.faultReason := rfl
@[simp] theorem drop_lastPoll : (drop s).lastPoll = s.lastPoll := rfl
@[simp] theorem drop_timeoutFlag : (drop s).timeoutFlag = s.timeoutFlag := rfl
@[simp] theorem drop_env : (drop s).env = s.env := rfl
@[simp] theorem drop_trace : (drop s).trace = s.trace ++ [.armRx frameMax] := rfl
@[simp] theorem drop_returns : (drop s).returns = s.returns := rfl

/-! ### A fatal host call (R41) -/

@[simp] theorem fatal_cfg (op : HostOp) (id : Nat) : (fatal op id s).cfg = s.cfg := rfl
@[simp] theorem fatal_reg (op : HostOp) (id : Nat) : (fatal op id s).reg = s.reg := rfl
@[simp] theorem fatal_coil (op : HostOp) (id : Nat) : (fatal op id s).coil = s.coil := rfl
@[simp] theorem fatal_rx (op : HostOp) (id : Nat) : (fatal op id s).rx = s.rx := rfl
@[simp] theorem fatal_rxLen (op : HostOp) (id : Nat) : (fatal op id s).rxLen = s.rxLen := rfl
@[simp] theorem fatal_rxDone (op : HostOp) (id : Nat) : (fatal op id s).rxDone = s.rxDone := rfl
@[simp] theorem fatal_txDone (op : HostOp) (id : Nat) : (fatal op id s).txDone = s.txDone := rfl
@[simp] theorem fatal_txBuf (op : HostOp) (id : Nat) : (fatal op id s).txBuf = s.txBuf := rfl
@[simp] theorem fatal_dir (op : HostOp) (id : Nat) : (fatal op id s).dir = s.dir := rfl
@[simp] theorem fatal_phase (op : HostOp) (id : Nat) : (fatal op id s).phase = .fault := rfl
@[simp] theorem fatal_faultReason (op : HostOp) (id : Nat) :
    (fatal op id s).faultReason = some (.hostIdOutOfRange op id) := rfl
@[simp] theorem fatal_lastPoll (op : HostOp) (id : Nat) : (fatal op id s).lastPoll = s.lastPoll := rfl
@[simp] theorem fatal_timeoutFlag (op : HostOp) (id : Nat) : (fatal op id s).timeoutFlag = s.timeoutFlag := rfl
@[simp] theorem fatal_env (op : HostOp) (id : Nat) : (fatal op id s).env = s.env := rfl
@[simp] theorem fatal_trace (op : HostOp) (id : Nat) : (fatal op id s).trace = s.trace := rfl
@[simp] theorem fatal_returns (op : HostOp) (id : Nat) : (fatal op id s).returns = s.returns := rfl

/-! ### Reads after the updates -/

@[simp] theorem regRead_regWrite (a b : Nat) (v : U16) :
    (s.regWrite a v).regRead b = if b = a then v else s.regRead b := by simp [State.regRead]

@[simp] theorem coilRead_coilWrite (a b : Nat) (v : Bool) :
    (s.coilWrite a v).coilRead b = if b = a then v else s.coilRead b := by simp [State.coilRead]

@[simp] theorem regRead_sendResponse (pdu : List Byte) (a : Nat) :
    (sendResponse pdu s).regRead a = s.regRead a := rfl
@[simp] theorem coilRead_sendResponse (pdu : List Byte) (a : Nat) :
    (sendResponse pdu s).coilRead a = s.coilRead a := rfl
@[simp] theorem regRead_coilWrite (a b : Nat) (v : Bool) : (s.coilWrite a v).regRead b = s.regRead b := rfl
@[simp] theorem coilRead_regWrite (a b : Nat) (v : U16) : (s.regWrite a v).coilRead b = s.coilRead b := rfl
@[simp] theorem regRead_emit (es : List PortEvent) (a : Nat) : (s.emit es).regRead a = s.regRead a := rfl
@[simp] theorem coilRead_emit (es : List PortEvent) (a : Nat) : (s.emit es).coilRead a = s.coilRead a := rfl

@[simp] theorem regRead_finishResponse (a : Nat) : (finishResponse s).regRead a = s.regRead a := rfl
@[simp] theorem coilRead_finishResponse (a : Nat) : (finishResponse s).coilRead a = s.coilRead a := rfl
@[simp] theorem regRead_drop (a : Nat) : (drop s).regRead a = s.regRead a := rfl
@[simp] theorem coilRead_drop (a : Nat) : (drop s).coilRead a = s.coilRead a := rfl
@[simp] theorem regRead_consumeRx (a : Nat) : (consumeRx s).regRead a = s.regRead a := rfl
@[simp] theorem coilRead_consumeRx (a : Nat) : (consumeRx s).coilRead a = s.coilRead a := rfl
@[simp] theorem regRead_latchTx (a : Nat) : (latchTx s).regRead a = s.regRead a := rfl
@[simp] theorem coilRead_latchTx (a : Nat) : (latchTx s).coilRead a = s.coilRead a := rfl
@[simp] theorem regRead_recordPoll (t : Timestamp) (a : Nat) : (recordPoll t s).regRead a = s.regRead a := rfl
@[simp] theorem coilRead_recordPoll (t : Timestamp) (a : Nat) : (recordPoll t s).coilRead a = s.coilRead a := rfl
@[simp] theorem regRead_watchdogUpdate (t : Timestamp) (a : Nat) : (watchdogUpdate t s).regRead a = s.regRead a := rfl
@[simp] theorem coilRead_watchdogUpdate (t : Timestamp) (a : Nat) : (watchdogUpdate t s).coilRead a = s.coilRead a := rfl
@[simp] theorem regRead_receive (bytes : List Byte) (a : Nat) : (receive bytes s).regRead a = s.regRead a := rfl
@[simp] theorem coilRead_receive (bytes : List Byte) (a : Nat) : (receive bytes s).coilRead a = s.coilRead a := rfl
@[simp] theorem regRead_giveBack (v : HostValue) (a : Nat) : (s.giveBack v).regRead a = s.regRead a := rfl
@[simp] theorem coilRead_giveBack (v : HostValue) (a : Nat) : (s.giveBack v).coilRead a = s.coilRead a := rfl
@[simp] theorem regRead_fatal (op : HostOp) (id : Nat) (a : Nat) : (fatal op id s).regRead a = s.regRead a := rfl
@[simp] theorem coilRead_fatal (op : HostOp) (id : Nat) (a : Nat) : (fatal op id s).coilRead a = s.coilRead a := rfl
@[simp] theorem regRead_raiseException (fc : Byte) (code : ExcCode) (a : Nat) : (raiseException fc code s).regRead a = s.regRead a := rfl
@[simp] theorem coilRead_raiseException (fc : Byte) (code : ExcCode) (a : Nat) : (raiseException fc code s).coilRead a = s.coilRead a := rfl
@[simp] theorem regRead_env (env : List EnvMove) (a : Nat) :
    State.regRead (State.mk s.cfg s.reg s.coil s.rx s.rxLen s.rxDone s.txDone s.txBuf s.dir s.phase s.faultReason s.lastPoll
      s.timeoutFlag env s.trace s.returns) a = s.regRead a := rfl
@[simp] theorem coilRead_env (env : List EnvMove) (a : Nat) :
    State.coilRead (State.mk s.cfg s.reg s.coil s.rx s.rxLen s.rxDone s.txDone s.txBuf s.dir s.phase s.faultReason s.lastPoll
      s.timeoutFlag env s.trace s.returns) a = s.coilRead a := rfl

/-- What RxBuf holds after a frame is received: its bytes at offsets 0..min(L,256)-1, the rest as before (R35). -/
theorem rxByte_receive (bytes : List Byte) (k : Nat) :
    (receive bytes s).rxByte k = ((bytes.take frameMax)[k]?).getD (s.rxByte k) := by
  simp [State.rxByte, memRead_memWriteList]

end Sys2Proof.Machine
end

