-- ==== Sys2Proof/Laws/Ops.lean ====
section
/-! SUPPORT. What each shared operation of the handlers can do, and what one instruction can do: everything a later
proof needs of `exec` is in `exec_served`. -/

namespace Sys2Proof.Machine

@[simp] theorem keepsRest_refl (s : State) : KeepsRest s s := by simp [KeepsRest]

theorem raiseException_eq (fc : Byte) (code : ExcCode) (s : State) :
    raiseException fc code s = sendResponse [fc ||| 0x80#8, excByte code] s := rfl

/-- `send_response` is the response of R213. -/
theorem answered_sendResponse (pdu : List Byte) (s : State) : Answered s (sendResponse pdu s) [] pdu := by
  simp [Answered, sealFrame, crcWire]

theorem keepsRest_sendResponse (pdu : List Byte) (s : State) : KeepsRest s (sendResponse pdu s) := by
  simp [KeepsRest]

/-- What a handler may have done to the state when its response starts: it may have written a block of writable,
backed slots of one file, and FC 0x06 may have called the hook; nothing else. -/
structure Served (i : Instr) (s s' : State) : Prop where
  rest : KeepsRest s s'
  txBuf : s'.txBuf = s.txBuf
  dir : s'.dir = s.dir
  phase : s'.phase = s.phase
  reg : ∃ a vs, s'.reg = memWriteList 0#16 s.reg a vs ∧ a + vs.length ≤ s.cfg.nReg
    ∧ ∀ k, k < vs.length → s.cfg.regReadOnly (a + k) = false
  coil : ∃ a vs, s'.coil = memWriteList false s.coil a vs ∧ a + vs.length ≤ s.cfg.nCoil
    ∧ ∀ k, k < vs.length → s.cfg.coilReadOnly (a + k) = false
  trace : s'.trace = s.trace ∨ ∃ a v, i = .writeSingleRegister a v ∧ s.cfg.flowRegId = some a.toNat
    ∧ s'.trace = s.trace ++ [.hook a.toNat]

theorem noBlock {α : Type} [DecidableEq α] (d : α) (m : Mem α) (n : Nat) (ro : Nat → Bool) :
    ∃ (a : Nat) (vs : List α), m = memWriteList d m a vs ∧ a + vs.length ≤ n
      ∧ ∀ k, k < vs.length → ro (a + k) = false :=
  ⟨0, [], rfl, by simp, by simp⟩

theorem oneSlot {α : Type} [DecidableEq α] (d : α) (m : Mem α) (n a : Nat) (v : α) (ro : Nat → Bool)
    (ha : a < n) (hro : ro a = false) : ∃ (b : Nat) (vs : List α), memWrite d m a v = memWriteList d m b vs
      ∧ b + vs.length ≤ n ∧ ∀ k, k < vs.length → ro (b + k) = false :=
  ⟨a, [v], rfl, by simpa using ha, by intro k hk; obtain rfl : k = 0 := by simpa using hk
                                      simpa using hro⟩

theorem Served.refl (i : Instr) (s : State) : Served i s s :=
  ⟨keepsRest_refl s, rfl, rfl, rfl, noBlock .., noBlock .., .inl rfl⟩

/-- A raised exception is served with a two-byte PDU and nothing written. -/
theorem served_raise (i : Instr) (fc : Byte) (code : ExcCode) (s : State) :
    ∃ s' pdu, Host.Outcome.next (ρ := Refusal) (φ := Fault) (raiseException fc code s)
        = .next (sendResponse pdu s') ∧ Served i s s' ∧ 2 ≤ pdu.length ∧ pdu.length ≤ 68 :=
  ⟨s, _, rfl, Served.refl i s, by simp, by simp⟩

theorem readCoilRange_served (i : Instr) (fc : Byte) (start count : U16) (s : State) :
    ∃ s' pdu, Host.Outcome.next (ρ := Refusal) (φ := Fault) (readCoilRange fc start count s)
        = .next (sendResponse pdu s') ∧ Served i s s' ∧ 2 ≤ pdu.length ∧ pdu.length ≤ 68 := by
  unfold readCoilRange
  split
  · exact served_raise ..
  · rename_i h
    obtain ⟨-, h2, -⟩ := (rangeError_eq_none ..).mp h
    refine ⟨s, _, rfl, Served.refl i s, by simp, ?_⟩
    simp only [List.length_cons, length_packCoils, coilBytes, maxCoil] at *
    omega

theorem readRegisterRange_served (i : Instr) (fc : Byte) (start count : U16) (s : State) :
    ∃ s' pdu, Host.Outcome.next (ρ := Refusal) (φ := Fault) (readRegisterRange fc start count s)
        = .next (sendResponse pdu s') ∧ Served i s s' ∧ 2 ≤ pdu.length ∧ pdu.length ≤ 68 := by
  unfold readRegisterRange
  split
  · exact served_raise ..
  · rename_i h
    obtain ⟨-, h2, -⟩ := (rangeError_eq_none ..).mp h
    refine ⟨s, _, rfl, Served.refl i s, by simp, ?_⟩
    simp only [List.length_cons, length_registerBytes, List.length_map, List.length_range, maxReg] at *
    omega

/-- The loop's end is a response of at most five bytes, whichever way the loop went. -/
theorem endWriteLoop_eq (fc : Byte) (start count : U16) (finished : Bool) (s : State) :
    endWriteLoop fc start count finished s
      = sendResponse (if finished then [fc, hi8 start, lo8 start, hi8 count, lo8 count]
          else [fc ||| 0x80#8, excByte .illegalDataAddress]) s := by
  cases finished <;> rfl

/-- The coil loop writes the values before the first read-only coil and then answers. -/
theorem writeCoilRange_eq (fc : Byte) (start count : U16) (bits : List Bool) (s : State) :
    writeCoilRange fc start count bits s
      = endWriteLoop fc start count
          (decide (writableCount s.cfg.coilReadOnly start.toNat bits.length = bits.length))
          { s with
            coil := memWriteList false s.coil start.toNat (bits.take (writableCount s.cfg.coilReadOnly start.toNat bits.length)) } := by
  simp [writeCoilRange, writeSlots_eq]

/-- The register loop writes the values before the first read-only register and then answers. -/
theorem writeRegisterRange_eq (fc : Byte) (start count : U16) (values : List U16) (s : State) :
    writeRegisterRange fc start count values s
      = endWriteLoop fc start count
          (decide (writableCount s.cfg.regReadOnly start.toNat values.length = values.length))
          { s with
            reg := memWriteList 0#16 s.reg start.toNat (values.take (writableCount s.cfg.regReadOnly start.toNat values.length)) } := by
  simp [writeRegisterRange, writeSlots_eq]

/-- Every instruction answers with a response, from a state in which it has done no more than `Served` says. -/
theorem exec_served (i : Instr) (s : State) :
    ∃ s' pdu, exec i s = .next (sendResponse pdu s') ∧ Served i s s' ∧ 2 ≤ pdu.length ∧ pdu.length ≤ 68 := by
  cases i with
  | readCoils start count => exact readCoilRange_served ..
  | readDiscreteInputs start count => exact readCoilRange_served ..
  | readHoldingRegisters start count => exact readRegisterRange_served ..
  | readInputRegisters start count => exact readRegisterRange_served ..
  | writeSingleCoil address value4 value5 =>
    simp only [exec, execWriteSingleCoil]
    split
    · exact served_raise ..
    · rename_i h
      obtain ⟨h1, h2⟩ := (slotError_eq_none ..).mp h
      refine ⟨_, _, rfl, ?_, by simp, by simp⟩
      unfold applyCoilPattern
      split
      · exact ⟨by simp [KeepsRest], rfl, rfl, rfl, noBlock .., oneSlot _ _ _ _ _ _ h1 h2, .inl rfl⟩
      · exact Served.refl ..
  | writeSingleRegister address value =>
    simp only [exec, execWriteSingleRegister]
    split
    · exact served_raise ..
    · rename_i h
      obtain ⟨h1, h2⟩ := (slotError_eq_none ..).mp h
      refine ⟨_, _, rfl, ?_, by simp, by simp⟩
      unfold flowHook
      split
      · rename_i hf
        exact ⟨by simp [KeepsRest], rfl, rfl, rfl, oneSlot _ _ _ _ _ _ h1 h2, noBlock ..,
          .inr ⟨address, value, rfl, hf, rfl⟩⟩
      · exact ⟨by simp [KeepsRest], rfl, rfl, rfl, oneSlot _ _ _ _ _ _ h1 h2, noBlock .., .inl rfl⟩
  | writeMultipleCoils start count byteCount data =>
    simp only [exec, execWriteMultipleCoils]
    split
    · exact served_raise ..
    · rename_i h
      obtain ⟨-, -, h3⟩ := (rangeError_eq_none ..).mp h
      rw [writeCoilRange_eq, endWriteLoop_eq]
      have hl : (unpackCoils data count.toNat).length ≤ count.toNat := by simp [unpackCoils]
      have hw := writableCount_le s.cfg.coilReadOnly start.toNat (unpackCoils data count.toNat).length
      refine ⟨_, _, rfl, ⟨by simp [KeepsRest], rfl, rfl, rfl, noBlock .., ⟨_, _, rfl, ?_, ?_⟩, .inl rfl⟩, ?_, ?_⟩
      · simp only [List.length_take]; omega
      · intro k hk
        exact writable_of_lt_writableCount _ _ _ _ (lt_of_lt_of_le hk (List.length_take_le _ _))
      · split <;> simp
      · split <;> simp
  | writeMultipleRegisters start count byteCount values =>
    simp only [exec, execWriteMultipleRegisters]
    split
    · exact served_raise ..
    · rename_i h
      obtain ⟨-, -, h3⟩ := (rangeError_eq_none ..).mp h
      rw [writeRegisterRange_eq, endWriteLoop_eq]
      have hl : (values.take count.toNat).length ≤ count.toNat := by simp
      have hw := writableCount_le s.cfg.regReadOnly start.toNat (values.take count.toNat).length
      refine ⟨_, _, rfl, ⟨by simp [KeepsRest], rfl, rfl, rfl, ⟨_, _, rfl, ?_, ?_⟩, noBlock .., .inl rfl⟩, ?_, ?_⟩
      · simp only [List.length_take] at *; omega
      · intro k hk
        exact writable_of_lt_writableCount _ _ _ _ (lt_of_lt_of_le hk (List.length_take_le _ _))
      · split <;> simp
      · split <;> simp

/-- What a handler may have changed of the store: backed, writable slots. -/
theorem Served.regRead_changed {i : Instr} {s s' : State} (h : Served i s s') {a : Nat}
    (hne : s'.regRead a ≠ s.regRead a) : a < s.cfg.nReg ∧ s.cfg.regReadOnly a = false :=
  memWriteList_changed 0#16 s.reg s'.reg s.cfg.nReg s.cfg.regReadOnly h.reg a hne

theorem Served.coilRead_changed {i : Instr} {s s' : State} (h : Served i s s') {a : Nat}
    (hne : s'.coilRead a ≠ s.coilRead a) : a < s.cfg.nCoil ∧ s.cfg.coilReadOnly a = false :=
  memWriteList_changed false s.coil s'.coil s.cfg.nCoil s.cfg.coilReadOnly h.coil a hne

/-- A response after events `before` (R213). -/
theorem answered_after {s s' : State} {pdu : List Byte} {before : List PortEvent} (hcfg : s'.cfg = s.cfg)
    (ht : s'.trace = s.trace ++ before) : Answered s (sendResponse pdu s') before pdu := by
  obtain ⟨a1, a2, a3, a4⟩ := answered_sendResponse pdu s'
  rw [hcfg] at a1 a4
  rw [ht] at a4
  exact ⟨a1, a2, a3, by simpa using a4⟩

/-- A host call that is not fatal does one thing, named by the call; a fatal one does what R41 says. -/
theorem hostCall_cases (call : HostCall) (s : State) :
    (∃ op id, hostCall call s = fatal op id s) ∨ (∃ v, hostCall call s = s.giveBack v)
      ∨ (∃ id b, id < s.cfg.nCoil ∧ hostCall call s = s.coilWrite id b)
      ∨ (∃ id v, id < s.cfg.nReg ∧ call = .setRegister id v ∧ hostCall call s = s.regWrite id v) := by
  cases call with
  | isMasterSilent => exact .inr (.inl ⟨_, rfl⟩)
  | getCoil id =>
    by_cases h : s.cfg.nCoil ≤ id
    · exact .inl ⟨_, _, if_pos h⟩
    · exact .inr (.inl ⟨.coil (s.coilRead id), if_neg h⟩)
  | setCoil id =>
    by_cases h : s.cfg.nCoil ≤ id
    · exact .inl ⟨_, _, if_pos h⟩
    · exact .inr (.inr (.inl ⟨id, true, by omega, if_neg h⟩))
  | clearCoil id =>
    by_cases h : s.cfg.nCoil ≤ id
    · exact .inl ⟨_, _, if_pos h⟩
    · exact .inr (.inr (.inl ⟨id, false, by omega, if_neg h⟩))
  | toggleCoil id =>
    by_cases h : s.cfg.nCoil ≤ id
    · exact .inl ⟨_, _, if_pos h⟩
    · exact .inr (.inr (.inl ⟨id, s.coilRead id ^^ true, by omega, if_neg h⟩))
  | getRegister id =>
    by_cases h : s.cfg.nReg ≤ id
    · exact .inl ⟨_, _, if_pos h⟩
    · exact .inr (.inl ⟨.register (s.regRead id), if_neg h⟩)
  | setRegister id v =>
    by_cases h : s.cfg.nReg ≤ id
    · exact .inl ⟨_, _, if_pos h⟩
    · exact .inr (.inr (.inr ⟨id, v, by omega, rfl, if_neg h⟩))

end Sys2Proof.Machine
end

