-- ==== Sys2Proof/Laws/PerInstr.lean ====
section
/-! SUPPORT. The families of statements made per instruction. -/

namespace Sys2Proof.Laws.FrameLength

open Sys2Proof.Machine

/-- A well-formed instruction's frame has the well-formed length of its format (R92, R93, R94), and a frame's
length is within the validator's bounds (R127). -/
def Statement (i : Instr) : Prop :=
  i.wf = true → ∀ addr, (encode addr i).length = i.frameLength ∧ frameMin ≤ i.frameLength ∧ i.frameLength ≤ frameMax

theorem readCoils (start count : U16) : Statement (.readCoils start count) := by
  intro _ addr; simp [encode, requestPdu, operandBytes, Instr.frameLength]

theorem readDiscreteInputs (start count : U16) : Statement (.readDiscreteInputs start count) := by
  intro _ addr; simp [encode, requestPdu, operandBytes, Instr.frameLength]

theorem readHoldingRegisters (start count : U16) : Statement (.readHoldingRegisters start count) := by
  intro _ addr; simp [encode, requestPdu, operandBytes, Instr.frameLength]

theorem readInputRegisters (start count : U16) : Statement (.readInputRegisters start count) := by
  intro _ addr; simp [encode, requestPdu, operandBytes, Instr.frameLength]

theorem writeSingleCoil (address : U16) (value4 value5 : Byte) :
    Statement (.writeSingleCoil address value4 value5) := by
  intro _ addr; simp [encode, requestPdu, operandBytes, Instr.frameLength]

theorem writeSingleRegister (address value : U16) : Statement (.writeSingleRegister address value) := by
  intro _ addr; simp [encode, requestPdu, operandBytes, Instr.frameLength]

theorem writeMultipleCoils (start count : U16) (byteCount : Byte) (data : List Byte) :
    Statement (.writeMultipleCoils start count byteCount data) := by
  intro h addr
  obtain ⟨h1, h2⟩ := (wf_writeMultipleCoils ..).mp h
  simp [encode, requestPdu, operandBytes, Instr.frameLength, Instr.dataBytes]
  omega

theorem writeMultipleRegisters (start count : U16) (byteCount : Byte) (values : List U16) :
    Statement (.writeMultipleRegisters start count byteCount values) := by
  intro h addr
  obtain ⟨h1, h2⟩ := (wf_writeMultipleRegisters ..).mp h
  simp [encode, requestPdu, operandBytes, Instr.frameLength, Instr.dataBytes]
  omega

end Sys2Proof.Laws.FrameLength
end

