-- ==== Sys2Proof/Laws/Step.lean ====
section
/-! SUPPORT. What a tick and a step can do, said once: `step_cases` is the inversion lemma every invariant is proved
from. -/

namespace Sys2Proof.Machine

@[simp] theorem thenDo_next (f : State → State) (s : State) : thenDo f (.next s) = .next (f s) := rfl

/-- The frame path ends in a drop or in a response; a response's handler did no more than `Served` says, or the
code was illegal and nothing was done. -/
theorem processFrame_cases (t : Timestamp) (s : State) :
    (∃ r, checkFrame s = some r ∧ processFrame t s = .next (drop s))
      ∨ (checkFrame s = none ∧ ∃ i s' pdu, decode s.rxByte = .instr i
          ∧ exec i (recordPoll t s) = .next (sendResponse pdu s')
          ∧ processFrame t s = .next (sendResponse pdu s')
          ∧ Served i (recordPoll t s) s' ∧ 2 ≤ pdu.length ∧ pdu.length ≤ 68)
      ∨ (checkFrame s = none ∧ ∃ fc, decode s.rxByte = .illegalFunction fc
          ∧ processFrame t s = .next (raiseException fc .illegalFunction (recordPoll t s))) := by
  have hrx : (recordPoll t s).rxByte = s.rxByte := rfl
  unfold processFrame
  cases hc : checkFrame s with
  | some r => exact .inl ⟨r, rfl, rfl⟩
  | none =>
    simp only [dispatch, hrx]
    cases hd : decode s.rxByte with
    | illegalFunction fc => exact .inr (.inr ⟨trivial, fc, rfl, rfl⟩)
    | instr i =>
      obtain ⟨s', pdu, he, hs, h1, h2⟩ := exec_served i (recordPoll t s)
      exact .inr (.inl ⟨trivial, i, s', pdu, rfl, he, he, hs, h1, h2⟩)

/-- A tick always answers a next state: it completes a response, processes a frame, or only updates the watchdog
(R238). -/
theorem tick_cases (t : Timestamp) (s : State) :
    (s.phase = .txBusy ∧ s.txDone = true ∧ tick t s = .next (watchdogUpdate t (finishResponse s)))
      ∨ (s.phase = .rxArmed ∧ s.rxDone = true ∧ tick t s = thenDo (watchdogUpdate t) (processFrame t (consumeRx s)))
      ∨ (¬(s.phase = .txBusy ∧ s.txDone = true) ∧ ¬(s.phase = .rxArmed ∧ s.rxDone = true)
          ∧ tick t s = .next (watchdogUpdate t s)) := by
  unfold tick consumeEvent
  by_cases h1 : s.phase = .txBusy ∧ s.txDone = true
  · exact .inl ⟨h1.1, h1.2, by rw [if_pos h1]; rfl⟩
  · by_cases h2 : s.phase = .rxArmed ∧ s.rxDone = true
    · exact .inr (.inl ⟨h2.1, h2.2, by rw [if_neg h1, if_pos h2]⟩)
    · exact .inr (.inr ⟨h1, h2, by rw [if_neg h1, if_neg h2]; rfl⟩)

/-- What a tick that answers a next state did: it completed a response, dropped a frame, ran an instruction, refused
an illegal code, or only updated the watchdog. -/
theorem tick_next {t : Timestamp} {s u : State} (h : tick t s = .next u) :
    (s.phase = .txBusy ∧ s.txDone = true ∧ u = watchdogUpdate t (finishResponse s))
      ∨ (s.phase = .rxArmed ∧ s.rxDone = true ∧ ∃ r, checkFrame s = some r ∧ u = watchdogUpdate t (drop (consumeRx s)))
      ∨ (s.phase = .rxArmed ∧ s.rxDone = true ∧ checkFrame s = none ∧ ∃ i s' pdu, decode s.rxByte = .instr i
          ∧ exec i (recordPoll t (consumeRx s)) = .next (sendResponse pdu s')
          ∧ Served i (recordPoll t (consumeRx s)) s' ∧ 2 ≤ pdu.length ∧ pdu.length ≤ 68
          ∧ u = watchdogUpdate t (sendResponse pdu s'))
      ∨ (s.phase = .rxArmed ∧ s.rxDone = true ∧ checkFrame s = none ∧ ∃ fc, decode s.rxByte = .illegalFunction fc
          ∧ u = watchdogUpdate t (raiseException fc .illegalFunction (recordPoll t (consumeRx s))))
      ∨ (¬(s.phase = .txBusy ∧ s.txDone = true) ∧ ¬(s.phase = .rxArmed ∧ s.rxDone = true)
          ∧ u = watchdogUpdate t s) := by
  rcases tick_cases t s with ⟨a, b, c⟩ | ⟨a, b, c⟩ | ⟨a, b, c⟩
  · rw [c] at h; cases h; exact .inl ⟨a, b, rfl⟩
  · right
    rw [c] at h
    rcases processFrame_cases t (consumeRx s) with ⟨r, h1, h2⟩ | ⟨h1, i, s', pdu, hd, he, hx, hs, l1, l2⟩ | ⟨h1, fc, hd, hx⟩
    · rw [h2] at h; cases h; exact .inl ⟨a, b, r, h1, rfl⟩
    · rw [hx] at h; cases h; exact .inr (.inl ⟨a, b, h1, i, s', pdu, hd, he, hs, l1, l2, rfl⟩)
    · rw [hx] at h; cases h; exact .inr (.inr (.inl ⟨a, b, h1, fc, hd, rfl⟩))
  · rw [c] at h; cases h; exact .inr (.inr (.inr (.inr ⟨a, b, rfl⟩)))

/-- What a step that answers a next state can be, with the script's head and what it did to the state that has the
head taken off. -/
theorem step_cases {s u : State} (h : step s = .next u) :
    (s.env = [] ∧ s.phase ≠ .fault ∧ u = s)
      ∨ (∃ t0 rest, s.env = .init t0 :: rest ∧ u = State.init s.cfg t0 rest)
      ∨ (s.phase ≠ .fault ∧ ∃ e rest, s.env = e :: rest ∧
          ((∃ t, e = .tick t ∧ tick t { s with env := rest } = .next u)
            ∨ (∃ bytes, e = .rxComplete bytes ∧ s.phase = .rxArmed ∧ s.rxDone = false
                ∧ u = receive bytes { s with env := rest })
            ∨ (e = .txComplete ∧ s.phase = .txBusy ∧ s.txDone = false ∧ u = latchTx { s with env := rest })
            ∨ (∃ call, e = .host call ∧ u = hostCall call { s with env := rest }))) := by
  unfold step at h
  split at h
  · rename_i he
    unfold idle at h
    split at h
    · cases h
    · cases h; exact .inl ⟨he, ‹_›, rfl⟩
  · rename_i e rest he
    cases e with
    | init t0 => cases h; exact .inr (.inl ⟨t0, rest, he, rfl⟩)
    | tick t =>
      simp only [envMove] at h
      split at h
      · cases h
      · exact .inr (.inr ⟨‹_›, _, rest, he, .inl ⟨t, rfl, h⟩⟩)
    | rxComplete bytes =>
      simp only [envMove] at h
      split at h
      · cases h
      · unfold rxComplete at h
        split at h
        · rename_i hp; cases h
          exact .inr (.inr ⟨‹_›, _, rest, he, .inr (.inl ⟨bytes, rfl, hp.1, hp.2, rfl⟩)⟩)
        · cases h
    | txComplete =>
      simp only [envMove] at h
      split at h
      · cases h
      · unfold txComplete at h
        split at h
        · rename_i hp; cases h
          exact .inr (.inr ⟨‹_›, _, rest, he, .inr (.inr (.inl ⟨rfl, hp.1, hp.2, rfl⟩))⟩)
        · cases h
    | host call =>
      simp only [envMove] at h
      split at h
      · cases h
      · cases h
        exact .inr (.inr ⟨‹_›, _, rest, he, .inr (.inr (.inr ⟨call, rfl, rfl⟩))⟩)

end Sys2Proof.Machine
end

