-- ==== Sys2Proof/Tests/Slice0.lean ====
section
/-! SUPPORT. Tests on the spec's own vectors (95_test_vectors.md) and on words written out from its encodings, the
well-formedness smoke tests, and for each statement with hypotheses a witness that meets them. -/

open Sys2Proof
open Sys2Proof.Machine

namespace Sys2Proof.Tests

set_option maxRecDepth 20000

/-! ### Helpers -/

/-- The bytes of a list, zero beyond it: a receive buffer. -/
def buffer (bytes : List Byte) (k : Nat) : Byte := bytes.getD k 0

/-- The outcome is a next state with this property. -/
def nextHas (o : Host.Outcome State Fault Refusal) (p : State → Bool) : Bool :=
  match o with
  | .next u => p u
  | .fault _ => false
  | .refused _ => false

/-- A reset instance after host calls. -/
def hosted (calls : List HostCall) : State := calls.foldl (fun s c => hostCall c s) State.reset

/-- A state in which a frame has been received and a tick at 100 ms is coming. -/
def arrived (frame : List Byte) (s : State) : State := receive frame { s with env := [.tick 100#32] }

/-- The start state of the spec's read vectors. -/
def readStart : State :=
  hosted [.setCoil 3, .setCoil 7, .setCoil 8, .setCoil 10, .setRegister 1 0x1234, .setRegister 2 0xABCD]

/-- The tick answers the frame with this response. -/
def answers (frame : List Byte) (s : State) (response : List Byte) : Bool :=
  nextHas (step (arrived frame s)) fun u => u.txBuf == response && u.phase == .txBusy

/-- Example E1: read two holding registers from slot 0. -/
def e1 : List Byte := [0x01#8, 0x03#8, 0x00#8, 0x00#8, 0x00#8, 0x02#8, 0xC4#8, 0x0B#8]

/-- A reset instance without read-only slots. -/
def unprotected : State := State.init { Config.reference with roReg := [], roCoil := [] } 0#32 []

/-- A reset instance with a response out. -/
def sending (done : Bool) (env : List EnvMove) : State :=
  { State.reset with phase := .txBusy, dir := true, txBuf := [0x01#8, 0x85#8, 0x02#8, 0xC3#8, 0x51#8], txDone := done, env := env }

/-! ### Well-formed terms: each check refuses an ill-formed term -/

theorem test_wf_coilDataTooShort : (Instr.writeMultipleCoils 0 9 2 [0xFF#8]).wf = false := by decide
theorem test_wf_coilDataTooLong : (Instr.writeMultipleCoils 0 8 1 [0xFF#8, 0x00#8]).wf = false := by decide
theorem test_wf_coilFrameTooLong :
    (Instr.writeMultipleCoils 0 1977 248 (List.replicate 248 0x00#8)).wf = false := by decide
theorem test_wf_registerDataTooShort : (Instr.writeMultipleRegisters 0 2 4 [0x1111]).wf = false := by decide
theorem test_wf_registerFrameTooLong :
    (Instr.writeMultipleRegisters 0 124 248 (List.replicate 124 0x0000)).wf = false := by decide
theorem test_wf_largestFrames :
    (Instr.writeMultipleCoils 0 1976 247 (List.replicate 247 0x00#8)).wf = true
      ∧ (Instr.writeMultipleRegisters 0 123 246 (List.replicate 123 0x0000)).wf = true := by decide
theorem test_wf_configRefused :
    ({ Config.reference with nReg := 0 } : Config).wf = false ∧ ({ Config.reference with nReg := 65537 } : Config).wf = false
      ∧ ({ Config.reference with nCoil := 0 } : Config).wf = false
      ∧ ({ Config.reference with nCoil := 65537 } : Config).wf = false
      ∧ ({ Config.reference with roReg := [33] } : Config).wf = false
      ∧ ({ Config.reference with roCoil := [44] } : Config).wf = false
      ∧ ({ Config.reference with flowRegId := some 33 } : Config).wf = false ∧ Config.reference.wf = true := by decide

/-! ### Decoding: words written out from R92 to R94, R98, R100 -/

theorem test_decode_readFamily :
    decode (buffer [0x01#8, 0x01#8, 0x12#8, 0x34#8, 0xAB#8, 0xCD#8]) = .instr (.readCoils 0x1234 0xABCD)
      ∧ decode (buffer [0x01#8, 0x02#8, 0x12#8, 0x34#8, 0xAB#8, 0xCD#8]) = .instr (.readDiscreteInputs 0x1234 0xABCD)
      ∧ decode (buffer [0x01#8, 0x03#8, 0x12#8, 0x34#8, 0xAB#8, 0xCD#8]) = .instr (.readHoldingRegisters 0x1234 0xABCD)
      ∧ decode (buffer [0x01#8, 0x04#8, 0x12#8, 0x34#8, 0xAB#8, 0xCD#8]) = .instr (.readInputRegisters 0x1234 0xABCD) := by
  decide
theorem test_decode_writeSingle :
    decode (buffer [0x01#8, 0x05#8, 0x00#8, 0x08#8, 0xFF#8, 0x00#8]) = .instr (.writeSingleCoil 8 0xFF#8 0x00#8)
      ∧ decode (buffer [0x01#8, 0x06#8, 0x00#8, 0x14#8, 0x12#8, 0x34#8]) = .instr (.writeSingleRegister 20 0x1234) := by
  decide
theorem test_decode_writeMultiple :
    decode (buffer [0x01#8, 0x0F#8, 0x00#8, 0x05#8, 0x00#8, 0x09#8, 0x07#8, 0x1F#8, 0x01#8, 0xEE#8])
        = .instr (.writeMultipleCoils 5 9 0x07#8 [0x1F#8, 0x01#8])
      ∧ decode (buffer [0x01#8, 0x10#8, 0x00#8, 0x13#8, 0x00#8, 0x02#8, 0x04#8, 0xAA#8, 0xBB#8, 0xCC#8, 0xDD#8, 0xEE#8])
        = .instr (.writeMultipleRegisters 19 2 0x04#8 [0xAABB, 0xCCDD]) := by
  decide
theorem test_decode_illegal :
    decode (buffer [0x01#8, 0x07#8]) = .illegalFunction 0x07#8 ∧ decode (buffer []) = .illegalFunction 0x00#8
      ∧ decode (buffer [0x01#8, 0x83#8, 0x02#8]) = .illegalFunction 0x83#8 := by decide

/-- A table word is the function code in bits 7..0; the body is zeros. -/
theorem test_tableWord :
    decodeTableWord 8 0x10 = some (.writeMultipleRegisters 0 0 0x00#8 []) ∧ decodeTableWord 8 0x05 = some (.writeSingleCoil 0 0x00#8 0x00#8)
      ∧ decodeTableWord 8 0x07 = none ∧ decodeTableWord 40 0x0A00030001 = some (.readCoils 3 10) := by decide
theorem test_withFetchWord :
    nextHas (step (State.reset.withFetchWord 8 0x05)) (fun u => u.txBuf.take 6 == [0x01#8, 0x05#8, 0x00#8, 0x00#8, 0x00#8, 0x00#8])
      = true := by decide

/-! ### The CRC (V-CRC-2, V-CRC-3) -/

theorem test_V_CRC_2 :
    crc16 [0x31#8, 0x32#8, 0x33#8, 0x34#8, 0x35#8, 0x36#8, 0x37#8, 0x38#8, 0x39#8] = 0x4B37#16 := by decide
theorem test_V_CRC_3 :
    encode 0x01#8 (.readHoldingRegisters 0 2) = e1 ∧ verify e1 = some true
      ∧ verify [0x01#8, 0x03#8, 0x00#8, 0x00#8, 0x00#8, 0x02#8, 0xC4#8, 0x8B#8] = some false ∧ verify [0x01#8] = none := by
  decide

/-! ### The instructions (V-RD, V-WS, V-WM) -/

theorem test_V_RD_1 : answers [0x01#8, 0x01#8, 0x00#8, 0x03#8, 0x00#8, 0x0A#8, 0x4C#8, 0x0D#8] readStart
    [0x01#8, 0x01#8, 0x02#8, 0xB1#8, 0x00#8, 0xCD#8, 0xAC#8] = true := by decide
theorem test_V_RD_7 : answers [0x01#8, 0x01#8, 0x00#8, 0x28#8, 0x00#8, 0x05#8, 0x7C#8, 0x01#8] readStart
    [0x01#8, 0x81#8, 0x03#8, 0x00#8, 0x51#8] = true := by decide
theorem test_V_RD_2 : answers [0x01#8, 0x02#8, 0x00#8, 0x03#8, 0x00#8, 0x0A#8, 0x08#8, 0x0D#8] readStart
    [0x01#8, 0x02#8, 0x02#8, 0xB1#8, 0x00#8, 0xCD#8, 0xE8#8] = true := by decide
theorem test_V_RD_14 : answers [0x01#8, 0x02#8, 0x00#8, 0x28#8, 0x00#8, 0x05#8, 0x38#8, 0x01#8] readStart
    [0x01#8, 0x82#8, 0x03#8, 0x00#8, 0xA1#8] = true := by decide
theorem test_V_RD_3 : answers [0x01#8, 0x03#8, 0x00#8, 0x01#8, 0x00#8, 0x02#8, 0x95#8, 0xCB#8] readStart
    [0x01#8, 0x03#8, 0x04#8, 0x12#8, 0x34#8, 0xAB#8, 0xCD#8, 0x00#8, 0x20#8] = true := by decide
theorem test_V_RD_19 : answers [0x01#8, 0x03#8, 0xFF#8, 0xFF#8, 0x00#8, 0x21#8, 0x85#8, 0xF6#8] readStart
    [0x01#8, 0x83#8, 0x02#8, 0xC0#8, 0xF1#8] = true := by decide
theorem test_V_RD_4 : answers [0x01#8, 0x04#8, 0x00#8, 0x01#8, 0x00#8, 0x02#8, 0x20#8, 0x0B#8] readStart
    [0x01#8, 0x04#8, 0x04#8, 0x12#8, 0x34#8, 0xAB#8, 0xCD#8, 0x01#8, 0x97#8] = true := by decide
theorem test_V_RD_22 : answers [0x01#8, 0x04#8, 0x00#8, 0x00#8, 0x00#8, 0x00#8, 0xF0#8, 0x0A#8] readStart
    [0x01#8, 0x84#8, 0x03#8, 0x03#8, 0x01#8] = true := by decide

theorem test_V_WS_4 : nextHas (step (arrived [0x01#8, 0x05#8, 0x00#8, 0x06#8, 0x12#8, 0x34#8, 0x20#8, 0xBC#8] State.reset))
    (fun u => u.coil == [] && u.txBuf == [0x01#8, 0x05#8, 0x00#8, 0x06#8, 0x12#8, 0x34#8, 0x20#8, 0xBC#8]) = true := by decide
theorem test_V_WS_3 : nextHas (step (arrived [0x01#8, 0x05#8, 0x00#8, 0x06#8, 0xFF#8, 0x00#8, 0x6C#8, 0x3B#8] State.reset))
    (fun u => u.coil == [(6, true)] && u.txBuf == [0x01#8, 0x05#8, 0x00#8, 0x06#8, 0xFF#8, 0x00#8, 0x6C#8, 0x3B#8]) = true := by
  decide
theorem test_V_WS_16 : nextHas (step (arrived [0x01#8, 0x06#8, 0x00#8, 0x1C#8, 0x01#8, 0x00#8, 0x49#8, 0x9C#8] State.reset))
    (fun u => u.reg == [(28, 0x0100#16)] && u.trace == [.armRx 256, .hook 28, .delay 1, .setDir true,
      .transmit [0x01#8, 0x06#8, 0x00#8, 0x1C#8, 0x01#8, 0x00#8, 0x49#8, 0x9C#8]]) = true := by decide
theorem test_V_WS_14 : nextHas (step (arrived [0x01#8, 0x06#8, 0x00#8, 0x14#8, 0x00#8, 0x05#8, 0x09#8, 0xCD#8] State.reset))
    (fun u => u.reg == [] && u.txBuf == [0x01#8, 0x86#8, 0x02#8, 0xC3#8, 0xA1#8]) = true := by decide

theorem test_V_WM_9 : nextHas
    (step (arrived [0x01#8, 0x0F#8, 0x00#8, 0x0A#8, 0x00#8, 0x0A#8, 0x02#8, 0x8D#8, 0x03#8, 0xC0#8, 0xC3#8] State.reset))
    (fun u => u.coil == [(10, true), (12, true), (13, true), (17, true), (18, true), (19, true)]
      && u.txBuf == [0x01#8, 0x0F#8, 0x00#8, 0x0A#8, 0x00#8, 0x0A#8, 0xF5#8, 0xCE#8]) = true := by decide
theorem test_V_WM_10 : nextHas
    (step (arrived [0x01#8, 0x0F#8, 0x00#8, 0x05#8, 0x00#8, 0x05#8, 0x01#8, 0x1F#8, 0xE2#8, 0x9E#8] State.reset))
    (fun u => u.coil == [(5, true), (6, true), (7, true)] && u.txBuf == [0x01#8, 0x8F#8, 0x02#8, 0xC5#8, 0xF1#8]) = true := by
  decide
theorem test_V_WM_4 : nextHas
    (step (arrived [0x01#8, 0x10#8, 0x00#8, 0x13#8, 0x00#8, 0x03#8, 0x06#8, 0xAA#8, 0xAA#8, 0xBB#8, 0xBB#8, 0xCC#8, 0xCC#8, 0x16#8, 0x9C#8] State.reset))
    (fun u => u.reg == [(19, 0xAAAA#16)] && u.txBuf == [0x01#8, 0x90#8, 0x02#8, 0xCD#8, 0xC1#8]) = true := by decide
theorem test_V_WM_17 : nextHas
    (step (arrived [0x01#8, 0x10#8, 0x00#8, 0x00#8, 0x00#8, 0x02#8, 0x09#8, 0x12#8, 0x34#8, 0x56#8, 0x78#8, 0x9A#8, 0x1A#8, 0x10#8] State.reset))
    (fun u => u.reg == [(0, 0x1234#16), (1, 0x5678#16)]
      && u.txBuf == [0x01#8, 0x10#8, 0x00#8, 0x00#8, 0x00#8, 0x02#8, 0x41#8, 0xC8#8]) = true := by decide

/-! ### Illegal functions, the validator, the watchdog, the host (V-ILL, V-VAL, V-WD, V-HOST, V-EV, V-RSP) -/

theorem test_V_ILL_3 : answers [0x01#8, 0x81#8, 0x00#8, 0x00#8, 0x00#8, 0x00#8, 0x3D#8, 0xD4#8] State.reset
    [0x01#8, 0x81#8, 0x01#8, 0x81#8, 0x90#8] = true := by decide
theorem test_V_VAL_4 : answers [0x01#8, 0x03#8, 0x40#8, 0x21#8] State.reset [0x01#8, 0x83#8, 0x03#8, 0x01#8, 0x31#8] = true := by
  decide
theorem test_V_VAL_7 : nextHas (step (arrived [0x00#8, 0x03#8, 0x00#8, 0x00#8, 0x00#8, 0x02#8, 0xC5#8, 0xDA#8] State.reset))
    (fun u => u.txBuf == [] && u.trace == [.armRx 256, .armRx 256] && u.lastPoll == 0#32 && u.phase == .rxArmed) = true := by
  decide
theorem test_V_WD_1_2 : nextHas (step { State.reset with env := [.tick 9999#32] }) (fun u => !u.timeoutFlag) = true
    ∧ nextHas (step { State.reset with env := [.tick 10000#32] }) (fun u => u.timeoutFlag) = true := by decide
theorem test_V_WD_8 : timedOut 0x0000260F#32 0xFFFFFF00#32 = false ∧ timedOut 0x00002610#32 0xFFFFFF00#32 = true := by decide
theorem test_V_HOST_2_4 : (hosted [.setCoil 8, .getCoil 8]).returns = [.coil true]
    ∧ (hosted [.toggleCoil 5, .getCoil 5, .toggleCoil 5, .getCoil 5]).returns = [.coil true, .coil false] := by decide
theorem test_V_HOST_7 : nextHas (step { State.reset with env := [.host (.getCoil 44)] })
    (fun u => u.phase == .fault && u.trace == [.armRx 256] && u.returns == []) = true := by decide
theorem test_V_EV_1 : step { State.reset with env := [.txComplete] } = .refused .noTransmitOutstanding := rfl
theorem test_V_RSP_5 : nextHas (step (sending true [.tick 101#32]))
    (fun u => u.trace == [.armRx 256, .setDir false, .delay 1, .armRx 256] && u.phase == .rxArmed && !u.dir && !u.txDone)
      = true := by decide

/-! ### Witnesses: concrete values that meet the hypotheses of each statement, together -/

theorem witness_DecodeOfEncodeIsTheInstruction :
    (Instr.writeMultipleCoils 10 10 2 [0x8D#8, 0x03#8]).wf = true
      ∧ ∀ k b, (encode 0x01#8 (.writeMultipleCoils 10 10 2 [0x8D#8, 0x03#8]))[k]? = some b →
        buffer (encode 0x01#8 (.writeMultipleCoils 10 10 2 [0x8D#8, 0x03#8])) k = b := by
  refine ⟨by decide, fun k b h => ?_⟩
  unfold buffer
  rw [List.getD_eq_getElem?_getD, h]; rfl
theorem witness_EncodeOfDecodedGivesTheBytesRead :
    decode (buffer e1) = .instr (.readHoldingRegisters 0 2)
      ∧ (requestPdu (.readHoldingRegisters 0 2))[4]? = some (0x02#8 : Byte) := by decide
theorem witness_IllegalFunctionCodesAnswerIllegalFunction :
    (arrived [0x01#8, 0x07#8] State.reset).rxByte 1 ∉ ([0x01#8, 0x02#8, 0x03#8, 0x04#8, 0x05#8, 0x06#8, 0x0F#8, 0x10#8] : List Byte)
      ∧ State.reset.rxByte 1 ∉ ([0x01#8, 0x02#8, 0x03#8, 0x04#8, 0x05#8, 0x06#8, 0x0F#8, 0x10#8] : List Byte)
      ∧ (0xFF#8 : Byte).getLsbD 7 = true ∧ (0x80#8 : Byte).getLsbD 7 = true := by decide
theorem witness_DecodedWritesCarryTheDataAtOffsetSeven :
    (decode (buffer [0x01#8, 0x0F#8, 0x00#8, 0x00#8, 0x00#8, 0x2C#8, 0x06#8, 0x01#8, 0x02#8, 0x03#8, 0x04#8, 0x05#8, 0x0F#8])
        = .instr (.writeMultipleCoils 0 44 0x06#8 [0x01#8, 0x02#8, 0x03#8, 0x04#8, 0x05#8, 0x0F#8]) ∧ (44#16).toNat ≤ 44)
      ∧ (decode (buffer [0x01#8, 0x10#8, 0x00#8, 0x00#8, 0x00#8, 0x21#8])
        = .instr (.writeMultipleRegisters 0 33 0x00#8 (List.replicate 33 0)) ∧ (33#16).toNat ≤ 33
        ∧ (List.replicate 33 (0 : U16))[32]? = some 0) := by decide
theorem witness_DecodeReadsOnlyTheReceiveBuffer :
    (∀ k, 1 ≤ k → k < 256 → buffer e1 k = (fun j => if j = 0 ∨ 256 ≤ j then 0xEE#8 else buffer e1 j) k)
      ∧ buffer e1 ≠ fun j => if j = 0 ∨ 256 ≤ j then 0xEE#8 else buffer e1 j := by
  refine ⟨fun k h1 h2 => ?_, fun h => ?_⟩
  · have : ¬(k = 0 ∨ 256 ≤ k) := by omega
    simp [this]
  · exact absurd (congrFun h 0) (by decide)
theorem witness_VerifyRejectsOneFlippedBit :
    ([0x01#8] : List Byte)[0]? = some 0x01#8 ∧ 7 < 8 ∧ ([0x01#8, 0x03#8] : List Byte)[1]? = some 0x03#8 ∧ 0 < 8 := by decide
theorem witness_ResponsesHaveTheirFormat :
    exec (.readCoils 0 0) State.reset = .next (raiseException 0x01#8 .illegalDataValue State.reset) := rfl
theorem witness_StepRunsTheDecodedInstruction :
    (arrived e1 State.reset).env = .tick 100#32 :: [] ∧ (arrived e1 State.reset).phase = .rxArmed
      ∧ (arrived e1 State.reset).rxDone = true ∧ checkFrame (arrived e1 State.reset) = none
      ∧ decode (arrived e1 State.reset).rxByte = .instr (.readHoldingRegisters 0 2) := by decide
theorem witness_ReceivedFrameRunsItsInstruction :
    (Instr.readHoldingRegisters 0 2).wf = true ∧ State.reset.phase = .rxArmed ∧ State.reset.rxDone = false
      ∧ encode State.reset.cfg.slaveAddr (.readHoldingRegisters 0 2) = e1
      ∧ ({ State.reset with env := [.rxComplete e1, .tick 100#32] } : State).env
        = .rxComplete (encode State.reset.cfg.slaveAddr (.readHoldingRegisters 0 2)) :: .tick 100#32 :: [] := by decide
theorem witness_BadFramesAreDroppedSilently :
    ((arrived [0x01#8, 0x03#8, 0x00#8] State.reset).rxLen < 4
        ∧ (arrived [0x01#8, 0x03#8, 0x00#8] State.reset).phase = .rxArmed
        ∧ (arrived [0x01#8, 0x03#8, 0x00#8] State.reset).rxDone = true)
      ∧ 256 < ({ arrived e1 State.reset with rxLen := 257 } : State).rxLen
      ∧ (arrived [0x00#8, 0x03#8, 0x00#8, 0x00#8, 0x00#8, 0x02#8, 0xC5#8, 0xDA#8] State.reset).rxByte 0
          ≠ State.reset.cfg.slaveAddr
      ∧ verify ((List.range 4).map (arrived [0x01#8, 0x03#8, 0x40#8, 0x20#8] State.reset).rxByte) = some false := by decide
theorem witness_DropOnlyRearmsTheReceiver :
    checkFrame (arrived [0x01#8, 0x03#8, 0x40#8, 0x20#8] State.reset) = some .badCrc
      ∧ checkFrame (arrived [0x01#8, 0x03#8, 0x00#8] State.reset) = some .badLength
      ∧ checkFrame (arrived [0x02#8, 0x03#8, 0x40#8, 0x21#8] State.reset) = some .foreignAddress := by decide
/-- The hypotheses of `ValidatedFrameIsAnsweredOnceAndFeedsTheWatchdog`, at the shortest legal frame. -/
theorem witness_ValidatedFrameIsAnsweredOnce :
    (arrived [0x01#8, 0x03#8, 0x40#8, 0x21#8] State.reset).env = .tick 100#32 :: []
      ∧ (arrived [0x01#8, 0x03#8, 0x40#8, 0x21#8] State.reset).phase = .rxArmed
      ∧ (arrived [0x01#8, 0x03#8, 0x40#8, 0x21#8] State.reset).rxDone = true
      ∧ checkFrame (arrived [0x01#8, 0x03#8, 0x40#8, 0x21#8] State.reset) = none := by decide
theorem witness_QuietTickOnlyUpdatesTheWatchdog :
    (sending false [.tick 5#32]).env = .tick 5#32 :: [] ∧ (sending false [.tick 5#32]).phase ≠ .fault
      ∧ ¬((sending false [.tick 5#32]).phase = .txBusy ∧ (sending false [.tick 5#32]).txDone = true)
      ∧ ¬((sending false [.tick 5#32]).phase = .rxArmed ∧ (sending false [.tick 5#32]).rxDone = true)
      ∧ ¬(State.reset.phase = .rxArmed ∧ State.reset.rxDone = true) := by decide

theorem witness_ReadCoilsAnswersThePackedRange :
    (1 ≤ (44#16).toNat ∧ (44#16).toNat ≤ 44 ∧ (0#16).toNat + (44#16).toNat ≤ State.reset.cfg.nCoil)
      ∧ (1 ≤ (1#16).toNat ∧ (1#16).toNat ≤ 44 ∧ (43#16).toNat + (1#16).toNat ≤ State.reset.cfg.nCoil) := by decide
theorem witness_ReadCoilsRefusesOtherRanges :
    ¬(1 ≤ (0#16).toNat ∧ (0#16).toNat ≤ 44 ∧ (0#16).toNat + (0#16).toNat ≤ State.reset.cfg.nCoil)
      ∧ ¬(1 ≤ (45#16).toNat ∧ (45#16).toNat ≤ 44 ∧ (0#16).toNat + (45#16).toNat ≤ State.reset.cfg.nCoil)
      ∧ ¬(1 ≤ (8#16).toNat ∧ (8#16).toNat ≤ 44 ∧ (37#16).toNat + (8#16).toNat ≤ State.reset.cfg.nCoil) := by decide
theorem witness_ReadRegistersAnswersTheRange :
    (1 ≤ (33#16).toNat ∧ (33#16).toNat ≤ 33 ∧ (0#16).toNat + (33#16).toNat ≤ State.reset.cfg.nReg)
      ∧ (1 ≤ (1#16).toNat ∧ (1#16).toNat ≤ 33 ∧ (32#16).toNat + (1#16).toNat ≤ State.reset.cfg.nReg) ∧ 32 < (33#16).toNat := by
  decide
theorem witness_ReadRegistersRefusesOtherRanges :
    ¬(1 ≤ (0#16).toNat ∧ (0#16).toNat ≤ 33) ∧ ¬(1 ≤ (34#16).toNat ∧ (34#16).toNat ≤ 33)
      ∧ (1 ≤ (2#16).toNat ∧ (2#16).toNat ≤ 33 ∧ State.reset.cfg.nReg < (32#16).toNat + (2#16).toNat) := by decide
theorem witness_WriteSingleCoilFollowsItsRule :
    buffer [0x01#8, 0x05#8] 1 = 0x05#8
      ∧ State.reset.cfg.nCoil ≤ (44#16).toNat ∧ State.reset.cfg.coilReadOnly (43#16).toNat = true
      ∧ ((42#16).toNat < State.reset.cfg.nCoil ∧ State.reset.cfg.coilReadOnly (42#16).toNat = false)
      ∧ ¬((0x00#8 : Byte) = 0xFF#8 ∧ (0xFF#8 : Byte) = 0x00#8) ∧ ¬((0x00#8 : Byte) = 0x00#8 ∧ (0xFF#8 : Byte) = 0x00#8) := by decide
theorem witness_WriteSingleRegisterFollowsItsRule :
    buffer [0x01#8, 0x06#8] 1 = 0x06#8
      ∧ State.reset.cfg.nReg ≤ (33#16).toNat ∧ State.reset.cfg.regReadOnly (20#16).toNat = true
      ∧ ((32#16).toNat < State.reset.cfg.nReg ∧ State.reset.cfg.regReadOnly (32#16).toNat = false
        ∧ State.reset.cfg.flowRegId ≠ some (32#16).toNat)
      ∧ ((28#16).toNat < State.reset.cfg.nReg ∧ State.reset.cfg.regReadOnly (28#16).toNat = false
        ∧ State.reset.cfg.flowRegId = some (28#16).toNat) := by decide
theorem witness_HookFiresOnlyForWriteSingleRegister :
    nextHas (step (arrived [0x01#8, 0x06#8, 0x00#8, 0x1C#8, 0x00#8, 0x00#8, 0x48#8, 0x0C#8] State.reset))
      (fun u => State.reset.trace.count (.hook 28) < u.trace.count (.hook 28)) = true := by decide
theorem witness_WriteMultipleCoilsWritesTheRange :
    ([0xFF#8, 0xFF#8, 0xFF#8, 0xFF#8, 0xFF#8, 0x0F#8] : List Byte).length = ((44#16).toNat + 7) / 8
      ∧ 1 ≤ (44#16).toNat ∧ (44#16).toNat ≤ 44 ∧ (0#16).toNat + (44#16).toNat ≤ unprotected.cfg.nCoil
      ∧ (∀ k, k < (44#16).toNat → unprotected.cfg.coilReadOnly ((0#16).toNat + k) = false)
      ∧ ([0xFF#8, 0xFF#8, 0xFF#8, 0xFF#8, 0xFF#8, 0x0F#8] : List Byte)[43 / 8]? = some 0x0F#8 := by decide
theorem witness_WriteMultipleRegistersWritesTheRange :
    (List.replicate 33 (7 : U16)).length = (33#16).toNat
      ∧ 1 ≤ (33#16).toNat ∧ (33#16).toNat ≤ 33 ∧ (0#16).toNat + (33#16).toNat ≤ unprotected.cfg.nReg
      ∧ (∀ k, k < (33#16).toNat → unprotected.cfg.regReadOnly ((0#16).toNat + k) = false)
      ∧ (List.replicate 33 (7 : U16))[32]? = some 7 := by decide
theorem witness_AbortedWriteKeepsTheSlotsBeforeIt :
    (([0x1F#8] : List Byte).length = ((5#16).toNat + 7) / 8 ∧ (5#16).toNat ≤ 44
        ∧ (39#16).toNat + (5#16).toNat ≤ State.reset.cfg.nCoil ∧ 4 < (5#16).toNat
        ∧ (∀ k, k < 4 → State.reset.cfg.coilReadOnly ((39#16).toNat + k) = false)
        ∧ State.reset.cfg.coilReadOnly ((39#16).toNat + 4) = true)
      ∧ (([0xAAAA, 0xBBBB, 0xCCCC] : List U16).length = (3#16).toNat ∧ (3#16).toNat ≤ 33
        ∧ (19#16).toNat + (3#16).toNat ≤ State.reset.cfg.nReg ∧ 1 < (3#16).toNat
        ∧ (∀ k, k < 1 → State.reset.cfg.regReadOnly ((19#16).toNat + k) = false)
        ∧ State.reset.cfg.regReadOnly ((19#16).toNat + 1) = true)
      ∧ ¬(1 ≤ (45#16).toNat ∧ (45#16).toNat ≤ 44 ∧ (0#16).toNat + (45#16).toNat ≤ State.reset.cfg.nCoil)
      ∧ ¬(1 ≤ (3#16).toNat ∧ (3#16).toNat ≤ 33 ∧ (31#16).toNat + (3#16).toNat ≤ State.reset.cfg.nReg) := by decide
theorem witness_WriteMultipleRefusesOtherRanges :
    ¬(1 ≤ (0#16).toNat ∧ (0#16).toNat ≤ 44) ∧ ¬(1 ≤ (45#16).toNat ∧ (45#16).toNat ≤ 44)
      ∧ (1 ≤ (5#16).toNat ∧ (5#16).toNat ≤ 44 ∧ State.reset.cfg.nCoil < (40#16).toNat + (5#16).toNat)
      ∧ ¬(1 ≤ (34#16).toNat ∧ (34#16).toNat ≤ 33)
      ∧ (1 ≤ (3#16).toNat ∧ (3#16).toNat ≤ 33 ∧ State.reset.cfg.nReg < (31#16).toNat + (3#16).toNat) := by decide

/-- RxBuf holds a write of two coils, or of two registers, from slot 0. -/
def echoed (fc : Byte) : State := arrived [0x01#8, fc, 0x00#8, 0x00#8, 0x00#8, 0x02#8] State.reset

theorem witness_WriteMultipleEchoesTheRequestBytes :
    ((echoed 0x0F#8).rxByte 1 = 0x0F#8 ∧ 1 ≤ (be16 (echoed 0x0F#8).rxByte 4).toNat ∧ (be16 (echoed 0x0F#8).rxByte 4).toNat ≤ 44
        ∧ (be16 (echoed 0x0F#8).rxByte 2).toNat + (be16 (echoed 0x0F#8).rxByte 4).toNat ≤ (echoed 0x0F#8).cfg.nCoil
        ∧ ∀ k, k < (be16 (echoed 0x0F#8).rxByte 4).toNat →
          (echoed 0x0F#8).cfg.coilReadOnly ((be16 (echoed 0x0F#8).rxByte 2).toNat + k) = false)
      ∧ ((echoed 0x10#8).rxByte 1 = 0x10#8 ∧ 1 ≤ (be16 (echoed 0x10#8).rxByte 4).toNat ∧ (be16 (echoed 0x10#8).rxByte 4).toNat ≤ 33
        ∧ (be16 (echoed 0x10#8).rxByte 2).toNat + (be16 (echoed 0x10#8).rxByte 4).toNat ≤ (echoed 0x10#8).cfg.nReg
        ∧ ∀ k, k < (be16 (echoed 0x10#8).rxByte 4).toNat →
          (echoed 0x10#8).cfg.regReadOnly ((be16 (echoed 0x10#8).rxByte 2).toNat + k) = false) := by decide
theorem witness_CoilsWrittenAreReadBack :
    (([0x8D#8, 0x03#8] : List Byte).length = ((10#16).toNat + 7) / 8 ∧ 1 ≤ (10#16).toNat ∧ (10#16).toNat ≤ 44
        ∧ (10#16).toNat + (10#16).toNat ≤ State.reset.cfg.nCoil
        ∧ ∀ k, k < (10#16).toNat → State.reset.cfg.coilReadOnly ((10#16).toNat + k) = false)
      ∧ ∀ t : State, t.cfg = State.reset.cfg → KeepsCoils t t :=
  ⟨by decide, fun _ _ _ => rfl⟩

theorem witness_OnlyTheHostChangesReadOnlySlots :
    nextHas (step (arrived [0x01#8, 0x06#8, 0x00#8, 0x14#8, 0x00#8, 0x05#8, 0x09#8, 0xCD#8] State.reset)) (fun _ => true) = true
      ∧ (arrived [0x01#8, 0x06#8, 0x00#8, 0x14#8, 0x00#8, 0x05#8, 0x09#8, 0xCD#8] State.reset).env = [.tick 100#32]
      ∧ State.reset.cfg.regReadOnly 20 = true ∧ State.reset.cfg.coilReadOnly 8 = true := by decide
theorem witness_StoreIsWrittenOnlyByItsWriters :
    nextHas (step (arrived [0x01#8, 0x06#8, 0x00#8, 0x20#8, 0x00#8, 0x01#8, 0x49#8, 0xC0#8] State.reset))
        (fun u => u.regRead 32 != State.reset.regRead 32) = true
      ∧ nextHas (step { State.reset with env := [.host (.toggleCoil 43)] })
        (fun u => u.coilRead 43 != State.reset.coilRead 43) = true := by decide
theorem witness_FlagsAreWrittenOnlyByTheirOwners :
    (State.reset.rxDone = false
        ∧ nextHas (step { State.reset with env := [.rxComplete e1] }) (fun u => u.rxDone) = true)
      ∧ ((arrived e1 State.reset).rxDone = true ∧ nextHas (step (arrived e1 State.reset)) (fun u => !u.rxDone) = true)
      ∧ ((sending false []).txDone = false ∧ nextHas (step (sending false [.txComplete])) (fun u => u.txDone) = true)
      ∧ ((sending true []).txDone = true ∧ nextHas (step (sending true [.tick 5#32])) (fun u => !u.txDone) = true)
      ∧ nextHas (step { State.reset with env := [.tick 10000#32] }) (fun u => u.timeoutFlag != State.reset.timeoutFlag) = true := by
  decide
theorem witness_NoStepWritesTheConfiguration : step State.reset = .next State.reset := rfl
theorem witness_EveryTickComparesTheWatchdog :
    (arrived e1 State.reset).env = .tick 100#32 :: [] ∧ (arrived e1 State.reset).phase ≠ .fault
      ∧ ((arrived e1 State.reset).phase = .rxArmed ∧ (arrived e1 State.reset).rxDone = true
        ∧ checkFrame (arrived e1 State.reset) = none)
      ∧ ¬((sending true [.tick 5#32]).phase = .rxArmed ∧ (sending true [.tick 5#32]).rxDone = true
        ∧ checkFrame (sending true [.tick 5#32]) = none) := by decide
theorem witness_ElapsedTimeIsRightAcrossTheWrap : 10000 < 2 ^ 32 ∧ 9999 < 2 ^ 32 ∧ 2 ^ 32 - 1 < 2 ^ 32 := by decide

theorem witness_HostGettersReturnTheStateUnchanged :
    State.reset.phase ≠ .fault ∧ ({ State.reset with env := [.host (.getCoil 43)] } : State).env = .host (.getCoil 43) :: []
      ∧ 43 < State.reset.cfg.nCoil ∧ 32 < State.reset.cfg.nReg := by decide
theorem witness_HostSettersWriteOneSlot :
    State.reset.phase ≠ .fault ∧ 43 < State.reset.cfg.nCoil ∧ 32 < State.reset.cfg.nReg
      ∧ ({ State.reset with env := [.host (.toggleCoil 43)] } : State).env = .host (.toggleCoil 43) :: [] := by decide
theorem witness_FatalHostCallStopsTheInstance :
    State.reset.phase ≠ .fault ∧ State.reset.cfg.nCoil ≤ 44 ∧ State.reset.cfg.nReg ≤ 33
      ∧ ({ State.reset with env := [.host (.getCoil 44)] } : State).env = .host (.getCoil 44) :: [] := by decide
theorem witness_FaultIsLeftOnlyByInit :
    ({ State.reset with phase := .fault, env := [.init 7#32] } : State).phase = .fault
      ∧ step { State.reset with phase := .fault, env := [.init 7#32] } = .next (State.init Config.reference 7#32 []) :=
  ⟨rfl, rfl⟩
theorem witness_ReceiveCompleteFillsTheBuffer :
    (State.reset.phase ≠ .fault ∧ State.reset.phase = .rxArmed ∧ State.reset.rxDone = false
        ∧ e1.length ≤ 8 ∧ e1[7]? = some 0x0B#8)
      ∧ ¬((arrived e1 State.reset).phase = .rxArmed ∧ (arrived e1 State.reset).rxDone = false)
      ∧ ¬((sending false []).phase = .rxArmed ∧ (sending false []).rxDone = false) := by decide
theorem witness_TransmitCompleteSetsItsLatch :
    ((sending false [.txComplete]).phase = .txBusy ∧ (sending false [.txComplete]).txDone = false)
      ∧ (sending true [.txComplete]).phase ≠ .fault
      ∧ ¬((sending true [.txComplete]).phase = .txBusy ∧ (sending true [.txComplete]).txDone = false)
      ∧ ¬(State.reset.phase = .txBusy ∧ State.reset.txDone = false) := by decide
theorem witness_SentResponseIsCompletedByTheTick :
    (sending true [.tick 5#32]).env = .tick 5#32 :: [] ∧ (sending true [.tick 5#32]).phase = .txBusy
      ∧ (sending true [.tick 5#32]).txDone = true := by decide
theorem witness_ReceiverIsRearmedOnlyAfterDropOrSendComplete :
    nextHas (step (sending true [.tick 5#32])) (fun u => (sending true []).trace.count (.armRx 256) < u.trace.count (.armRx 256)) = true
      ∧ nextHas (step (arrived [0x01#8] State.reset)) (fun u => State.reset.trace.count (.armRx 256) < u.trace.count (.armRx 256))
        = true := by decide
theorem witness_OneResponseIsInFlight :
    (nextHas (step (sending true [.tick 5#32])) (fun _ => true) = true ∧ (sending true [.tick 5#32]).phase = .txBusy
        ∧ (sending true [.tick 5#32]).env = [.tick 5#32])
      ∧ ((arrived e1 State.reset).env = .tick 100#32 :: [] ∧ (arrived e1 State.reset).phase = .rxArmed
        ∧ (arrived e1 State.reset).rxDone = true ∧ checkFrame (arrived e1 State.reset) = none) := by decide
theorem witness_InitMakesANewInstance :
    ({ State.reset with phase := .fault, env := [.init 0xFFFFFFFF#32] } : State).env = .init 0xFFFFFFFF#32 :: [] := by decide
theorem witness_InvariantHoldsAfterReset :
    Config.reference.wf = true
      ∧ ({ Config.reference with nReg := 65536, nCoil := 1, roReg := [65535], roCoil := [], flowRegId := none } : Config).wf = true := by
  decide
/-- The hypotheses of `EveryStepKeepsTheInvariant`: a received frame, with its answer as the next state. -/
theorem witness_EveryStepKeepsTheInvariant :
    Machine.Inv (arrived e1 State.reset) ∧ nextHas (step (arrived e1 State.reset)) (fun u => u.phase == .txBusy) = true := by
  unfold Machine.Inv MemoryInv SequencerInv TxBufInv
  decide

end Sys2Proof.Tests
end

section
/-! The configuration is kept by every move of the environment (R5, R33). -/

namespace Sys2Proof.Machine

@[simp] theorem raiseException_cfg (fc : Byte) (code : ExcCode) (s : State) : (raiseException fc code s).cfg = s.cfg := by
  rw [raiseException_eq, sendResponse_cfg]

theorem Served.cfg {i : Instr} {s s' : State} (h : Served i s s') : s'.cfg = s.cfg := by
  obtain ⟨hcfg, -⟩ := h.rest
  exact hcfg

@[simp] theorem hostCall_cfg (call : HostCall) (s : State) : (hostCall call s).cfg = s.cfg := by
  rcases hostCall_cases call s with
    ⟨op, id, hcall⟩ | ⟨v, hcall⟩ | ⟨id, b, -, hcall⟩ | ⟨id, v, -, -, hcall⟩
  · rw [hcall, fatal_cfg]
  · rw [hcall, giveBack_cfg]
  · rw [hcall, coilWrite_cfg]
  · rw [hcall, regWrite_cfg]

/-- In four of the five branches the next state is a chain of named operations; in a served instruction the handler
comes first, and `Served.cfg` covers it. -/
theorem tick_keeps_cfg {t : Timestamp} {s u : State} (h : tick t s = .next u) : u.cfg = s.cfg := by
  rcases tick_next h with
    ⟨-, -, rfl⟩ | ⟨-, -, r, -, rfl⟩ | ⟨-, -, -, i, s', pdu, -, -, hserved, -, -, rfl⟩ | ⟨-, -, -, fc, -, rfl⟩
      | ⟨-, -, rfl⟩
  · rw [watchdogUpdate_cfg, finishResponse_cfg]
  · rw [watchdogUpdate_cfg, drop_cfg, consumeRx_cfg]
  · rw [watchdogUpdate_cfg, sendResponse_cfg, hserved.cfg, recordPoll_cfg, consumeRx_cfg]
  · rw [watchdogUpdate_cfg, raiseException_cfg, recordPoll_cfg, consumeRx_cfg]
  · rw [watchdogUpdate_cfg]

theorem step_keeps_cfg {s u : State} (h : step s = .next u) : u.cfg = s.cfg := by
  rcases step_cases h with ⟨-, -, rfl⟩ | ⟨t0, rest, -, rfl⟩ | ⟨-, e, rest, -, hmove⟩
  · rfl
  · rfl
  · rcases hmove with ⟨t, -, htick⟩ | ⟨bytes, -, -, -, rfl⟩ | ⟨-, -, -, rfl⟩ | ⟨call, -, rfl⟩
    · have hcfg := tick_keeps_cfg htick
      exact hcfg
    · rw [receive_cfg]
    · rw [latchTx_cfg]
    · rw [hostCall_cfg]

/-- Settles O34: each move that `step_cases` allows keeps the configuration, a new init by its definition (R280). -/
theorem noStepWritesTheConfiguration : Obligations.NoStepWritesTheConfiguration :=
  fun _ _ => step_keeps_cfg

end Sys2Proof.Machine
end

section
/-! The invariant is inductive: a rule for each operation a step is made of, then the tick and the step. -/

namespace Sys2Proof.Machine

/-! ### The sequencer's part of the invariant, phase by phase -/

/-- The third clause (never both latches) follows from the latch that the phase keeps clear; so too in `txBusy`. -/
theorem sequencerInv_iff_of_rxArmed {s : State} (hphase : s.phase = .rxArmed) :
    SequencerInv s ↔ s.dir = false ∧ s.txDone = false ∧ s.faultReason = none := by
  simp +contextual [SequencerInv, hphase, and_assoc]

theorem sequencerInv_iff_of_txBusy {s : State} (hphase : s.phase = .txBusy) :
    SequencerInv s ↔ s.dir = true ∧ s.rxDone = false ∧ s.faultReason = none := by
  simp +contextual [SequencerInv, hphase, and_assoc]

theorem sequencerInv_iff_of_fault {s : State} (hphase : s.phase = .fault) :
    SequencerInv s ↔ ¬(s.rxDone = true ∧ s.txDone = true) ∧ s.faultReason ≠ none := by
  simp [SequencerInv, hphase]

/-! ### Operations that touch nothing the invariant speaks of -/

variable {s s' : State}

@[simp] theorem inv_env_iff (env : List EnvMove) : Inv { s with env := env } ↔ Inv s := Iff.rfl
@[simp] theorem inv_watchdogUpdate_iff (t : Timestamp) : Inv (watchdogUpdate t s) ↔ Inv s := Iff.rfl
@[simp] theorem inv_recordPoll_iff (t : Timestamp) : Inv (recordPoll t s) ↔ Inv s := Iff.rfl
@[simp] theorem inv_drop_iff : Inv (drop s) ↔ Inv s := Iff.rfl
@[simp] theorem inv_giveBack_iff (v : HostValue) : Inv (s.giveBack v) ↔ Inv s := Iff.rfl

/-! ### Operations on the three spaces -/

theorem inv_regWrite {a : Nat} (v : U16) (h : Inv s) (ha : a < s.cfg.nReg) : Inv (s.regWrite a v) := by
  obtain ⟨hcfg, ⟨hreg, hcoil, hrx, hregBound, hcoilBound, hrxBound⟩, hseq, htx⟩ := h
  exact ⟨hcfg, ⟨memWrite_wf _ _ _ _ hreg, hcoil, hrx, memWrite_below hregBound ha, hcoilBound, hrxBound⟩, hseq, htx⟩

theorem inv_coilWrite {a : Nat} (b : Bool) (h : Inv s) (ha : a < s.cfg.nCoil) : Inv (s.coilWrite a b) := by
  obtain ⟨hcfg, ⟨hreg, hcoil, hrx, hregBound, hcoilBound, hrxBound⟩, hseq, htx⟩ := h
  exact ⟨hcfg, ⟨hreg, memWrite_wf _ _ _ _ hcoil, hrx, hregBound, memWrite_below hcoilBound ha, hrxBound⟩, hseq, htx⟩

/-- A handler writes only backed slots, so the store keeps its form and its bounds. -/
theorem Served.memoryInv {i : Instr} (hserved : Served i s s') (h : MemoryInv s) : MemoryInv s' := by
  obtain ⟨hreg, hcoil, hrx, hregBound, hcoilBound, hrxBound⟩ := h
  obtain ⟨hcfg', hrx', -⟩ := hserved.rest
  obtain ⟨a, values, hreg', ha, -⟩ := hserved.reg
  obtain ⟨b, bits, hcoil', hb, -⟩ := hserved.coil
  rw [MemoryInv, hcfg', hrx', hreg', hcoil']
  exact ⟨memWriteList_wf _ _ _ _ hreg, memWriteList_wf _ _ _ _ hcoil, hrx,
    memWriteList_below _ _ _ hregBound ha, memWriteList_below _ _ _ hcoilBound hb, hrxBound⟩

theorem Served.inv {i : Instr} (hserved : Served i s s') (h : Inv s) : Inv s' := by
  obtain ⟨hcfg, hmem, hseq, htx⟩ := h
  obtain ⟨-, -, -, hrxDone, htxDone, hreason, -⟩ := hserved.rest
  refine ⟨by rwa [hserved.cfg], hserved.memoryInv hmem, ?_, ?_⟩
  · rwa [SequencerInv, hserved.phase, hserved.dir, hrxDone, htxDone, hreason]
  · rwa [TxBufInv, hserved.phase, hserved.txBuf]

/-! ### Operations on the sequencer and the latches -/

theorem inv_init {cfg : Config} (hcfg : cfg.wf = true) (t0 : Timestamp) (env : List EnvMove) :
    Inv (State.init cfg t0 env) :=
  ⟨hcfg, by simp [MemoryInv, State.init], (sequencerInv_iff_of_rxArmed rfl).mpr ⟨rfl, rfl, rfl⟩,
    by simp [TxBufInv, State.init]⟩

theorem inv_consumeRx (h : Inv s) : Inv (consumeRx s) := by
  obtain ⟨hcfg, hmem, ⟨harmed, hbusy, -, hfault⟩, htx⟩ := h
  exact ⟨hcfg, hmem, ⟨harmed, fun hphase => ⟨(hbusy hphase).1, rfl⟩, by simp, hfault⟩, htx⟩

/-- The response's frame adds three bytes to the PDU, and the line is driven with it (R211, R213). -/
theorem inv_sendResponse {pdu : List Byte} (h : Inv s) (hphase : s.phase = .rxArmed) (hrxDone : s.rxDone = false)
    (hpos : 2 ≤ pdu.length) (hle : pdu.length ≤ 68) : Inv (sendResponse pdu s) := by
  obtain ⟨hcfg, hmem, hseq, -⟩ := h
  obtain ⟨-, -, hreason⟩ := (sequencerInv_iff_of_rxArmed hphase).mp hseq
  refine ⟨hcfg, hmem, (sequencerInv_iff_of_txBusy rfl).mpr ⟨rfl, hrxDone, hreason⟩, ?_⟩
  simp only [TxBufInv, sendResponse_txBuf, length_sealFrame, frameMax, frameMin]
  omega

theorem inv_finishResponse (h : Inv s) (hphase : s.phase = .txBusy) : Inv (finishResponse s) := by
  obtain ⟨hcfg, hmem, hseq, hlen, -⟩ := h
  obtain ⟨-, -, hreason⟩ := (sequencerInv_iff_of_txBusy hphase).mp hseq
  exact ⟨hcfg, hmem, (sequencerInv_iff_of_rxArmed rfl).mpr ⟨rfl, rfl, hreason⟩, hlen, by simp⟩

theorem inv_receive {bytes : List Byte} (h : Inv s) (hphase : s.phase = .rxArmed) : Inv (receive bytes s) := by
  obtain ⟨hcfg, ⟨hreg, hcoil, hrx, hregBound, hcoilBound, hrxBound⟩, hseq, htx⟩ := h
  have hfits : 0 + (bytes.take frameMax).length ≤ frameMax := by
    rw [Nat.zero_add]
    exact List.length_take_le ..
  refine ⟨hcfg, ⟨hreg, hcoil, memWriteList_wf _ _ _ _ hrx, hregBound, hcoilBound,
    memWriteList_below _ _ _ hrxBound hfits⟩, ?_, htx⟩
  exact (sequencerInv_iff_of_rxArmed (s := receive bytes s) hphase).mpr ((sequencerInv_iff_of_rxArmed hphase).mp hseq)

theorem inv_latchTx (h : Inv s) (hphase : s.phase = .txBusy) : Inv (latchTx s) := by
  obtain ⟨hcfg, hmem, hseq, htx⟩ := h
  refine ⟨hcfg, hmem, ?_, htx⟩
  exact (sequencerInv_iff_of_txBusy (s := latchTx s) hphase).mpr ((sequencerInv_iff_of_txBusy hphase).mp hseq)

theorem inv_fatal (op : HostOp) (id : Nat) (h : Inv s) : Inv (fatal op id s) := by
  obtain ⟨hcfg, hmem, ⟨-, -, hlatches, -⟩, hlen, -⟩ := h
  exact ⟨hcfg, hmem, (sequencerInv_iff_of_fault rfl).mpr ⟨hlatches, by simp⟩, hlen, by simp⟩

/-! ### The moves of the environment -/

theorem inv_hostCall (call : HostCall) (h : Inv s) : Inv (hostCall call s) := by
  rcases hostCall_cases call s with ⟨op, id, hcall⟩ | ⟨v, hcall⟩ | ⟨id, b, hid, hcall⟩ | ⟨id, v, hid, -, hcall⟩
  · rw [hcall]
    exact inv_fatal op id h
  · rwa [hcall, inv_giveBack_iff]
  · rw [hcall]
    exact inv_coilWrite b h hid
  · rw [hcall]
    exact inv_regWrite v h hid

/-- A response leaves from a state whose receive latch the tick has consumed, so no latch is set while it is out. -/
theorem tick_keeps_inv {t : Timestamp} {u : State} (h : Inv s) (htick : tick t s = .next u) : Inv u := by
  rcases tick_next htick with
    ⟨hphase, -, rfl⟩ | ⟨-, -, r, -, rfl⟩ | ⟨hphase, -, -, i, s', pdu, -, -, hserved, hpos, hle, rfl⟩
      | ⟨hphase, -, -, fc, -, rfl⟩ | ⟨-, -, rfl⟩
  · rw [inv_watchdogUpdate_iff]
    exact inv_finishResponse h hphase
  · rw [inv_watchdogUpdate_iff, inv_drop_iff]
    exact inv_consumeRx h
  · rw [inv_watchdogUpdate_iff]
    obtain ⟨-, -, -, hrxDone, -⟩ := hserved.rest
    have hinv : Inv s' := hserved.inv ((inv_recordPoll_iff t).mpr (inv_consumeRx h))
    exact inv_sendResponse hinv (hserved.phase.trans hphase) hrxDone hpos hle
  · rw [inv_watchdogUpdate_iff, raiseException_eq]
    exact inv_sendResponse ((inv_recordPoll_iff t).mpr (inv_consumeRx h)) hphase rfl (by simp) (by simp)
  · rwa [inv_watchdogUpdate_iff]

/-- Settles O48: each move that `step_cases` allows keeps the invariant; a transport event does because its latch is
set only in the phase that waits for it (R253). -/
theorem everyStepKeepsTheInvariant : Obligations.EveryStepKeepsTheInvariant := by
  intro s u h hstep
  rcases step_cases hstep with ⟨-, -, rfl⟩ | ⟨t0, rest, -, rfl⟩ | ⟨-, e, rest, -, hmove⟩
  · exact h
  · obtain ⟨hcfg, -⟩ := h
    exact inv_init hcfg t0 rest
  · have hinv : Inv { s with env := rest } := (inv_env_iff rest).mpr h
    rcases hmove with ⟨t, -, htick⟩ | ⟨bytes, -, hphase, -, rfl⟩ | ⟨-, hphase, -, rfl⟩ | ⟨call, -, rfl⟩
    · exact tick_keeps_inv hinv htick
    · exact inv_receive hinv hphase
    · exact inv_latchTx hinv hphase
    · exact inv_hostCall call hinv

end Sys2Proof.Machine
end

section
/-! The writers of the store (R31, R32, R62) and the protection of its read-only slots (R34, R72). -/

namespace Sys2Proof.Machine

/-! ### Which instructions leave a file alone -/

theorem readCoilRange_answers (fc : Byte) (start count : U16) (s : State) :
    ∃ pdu, readCoilRange fc start count s = sendResponse pdu s := by
  unfold readCoilRange
  split
  · exact ⟨_, raiseException_eq ..⟩
  · exact ⟨_, rfl⟩

theorem readRegisterRange_answers (fc : Byte) (start count : U16) (s : State) :
    ∃ pdu, readRegisterRange fc start count s = sendResponse pdu s := by
  unfold readRegisterRange
  split
  · exact ⟨_, raiseException_eq ..⟩
  · exact ⟨_, rfl⟩

theorem applyCoilPattern_reg (a : Nat) (value4 value5 : Byte) (s : State) :
    (applyCoilPattern a value4 value5 s).reg = s.reg := by
  unfold applyCoilPattern
  split <;> rfl

theorem flowHook_coil (a : Nat) (s : State) : (flowHook a s).coil = s.coil := by
  unfold flowHook
  split <;> rfl

theorem writeCoilRange_reg (fc : Byte) (start count : U16) (bits : List Bool) (s : State) :
    (writeCoilRange fc start count bits s).reg = s.reg := by
  rw [writeCoilRange_eq, endWriteLoop_eq, sendResponse_reg]

theorem writeRegisterRange_coil (fc : Byte) (start count : U16) (values : List U16) (s : State) :
    (writeRegisterRange fc start count values s).coil = s.coil := by
  rw [writeRegisterRange_eq, endWriteLoop_eq, sendResponse_coil]

theorem exec_keeps_reg {i : Instr} {s t : State} (hexec : exec i s = .next t)
    (hsingle : functionCode i ≠ 0x06#8) (hmultiple : functionCode i ≠ 0x10#8) : t.reg = s.reg := by
  cases i with
  | readCoils start count | readDiscreteInputs start count =>
    cases hexec
    obtain ⟨pdu, h⟩ := readCoilRange_answers _ start count s
    rw [h, sendResponse_reg]
  | readHoldingRegisters start count | readInputRegisters start count =>
    cases hexec
    obtain ⟨pdu, h⟩ := readRegisterRange_answers _ start count s
    rw [h, sendResponse_reg]
  | writeSingleCoil address value4 value5 =>
    simp only [exec, execWriteSingleCoil] at hexec
    split at hexec <;> cases hexec
    · rw [raiseException_eq, sendResponse_reg]
    · rw [sendResponse_reg, applyCoilPattern_reg]
  | writeMultipleCoils start count byteCount data =>
    simp only [exec, execWriteMultipleCoils] at hexec
    split at hexec <;> cases hexec
    · rw [raiseException_eq, sendResponse_reg]
    · rw [writeCoilRange_reg]
  | writeSingleRegister address value => exact absurd rfl hsingle
  | writeMultipleRegisters start count byteCount values => exact absurd rfl hmultiple

theorem exec_keeps_coil {i : Instr} {s t : State} (hexec : exec i s = .next t)
    (hsingle : functionCode i ≠ 0x05#8) (hmultiple : functionCode i ≠ 0x0F#8) : t.coil = s.coil := by
  cases i with
  | readCoils start count | readDiscreteInputs start count =>
    cases hexec
    obtain ⟨pdu, h⟩ := readCoilRange_answers _ start count s
    rw [h, sendResponse_coil]
  | readHoldingRegisters start count | readInputRegisters start count =>
    cases hexec
    obtain ⟨pdu, h⟩ := readRegisterRange_answers _ start count s
    rw [h, sendResponse_coil]
  | writeSingleRegister address value =>
    simp only [exec, execWriteSingleRegister] at hexec
    split at hexec <;> cases hexec
    · rw [raiseException_eq, sendResponse_coil]
    · rw [sendResponse_coil, flowHook_coil, regWrite_coil]
  | writeMultipleRegisters start count byteCount values =>
    simp only [exec, execWriteMultipleRegisters] at hexec
    split at hexec <;> cases hexec
    · rw [raiseException_eq, sendResponse_coil]
    · rw [writeRegisterRange_coil]
  | writeSingleCoil address value4 value5 => exact absurd rfl hsingle
  | writeMultipleCoils start count byteCount data => exact absurd rfl hmultiple

/-! ### What an instruction that changed a slot is -/

theorem exec_regRead_changed {i : Instr} {s t : State} {a : Nat} (hexec : exec i s = .next t)
    (hne : t.regRead a ≠ s.regRead a) :
    (functionCode i = 0x06#8 ∨ functionCode i = 0x10#8) ∧ a < s.cfg.nReg ∧ s.cfg.regReadOnly a = false := by
  constructor
  · by_contra hcode
    obtain ⟨hsingle, hmultiple⟩ := not_or.mp hcode
    exact hne (by rw [State.regRead, exec_keeps_reg hexec hsingle hmultiple, State.regRead])
  · obtain ⟨s', pdu, hanswer, hserved, -⟩ := exec_served i s
    obtain rfl : sendResponse pdu s' = t := by simpa [hanswer] using hexec
    exact hserved.regRead_changed hne

theorem exec_coilRead_changed {i : Instr} {s t : State} {a : Nat} (hexec : exec i s = .next t)
    (hne : t.coilRead a ≠ s.coilRead a) :
    (functionCode i = 0x05#8 ∨ functionCode i = 0x0F#8) ∧ a < s.cfg.nCoil ∧ s.cfg.coilReadOnly a = false := by
  constructor
  · by_contra hcode
    obtain ⟨hsingle, hmultiple⟩ := not_or.mp hcode
    exact hne (by rw [State.coilRead, exec_keeps_coil hexec hsingle hmultiple, State.coilRead])
  · obtain ⟨s', pdu, hanswer, hserved, -⟩ := exec_served i s
    obtain rfl : sendResponse pdu s' = t := by simpa [hanswer] using hexec
    exact hserved.coilRead_changed hne

/-! ### What a tick that changed a slot did -/

/-- A tick of s runs the instruction i: a validated frame that decodes to it stands in RxBuf, latched (R132, R238). -/
structure FrameRuns (s : State) (i : Instr) : Prop where
  armed : s.phase = .rxArmed
  latched : s.rxDone = true
  valid : checkFrame s = none
  decoded : decode s.rxByte = .instr i

/-- A tick touches the store only through the instruction it runs. -/
theorem tick_store_cases {t : Timestamp} {s u : State} (htick : tick t s = .next u) :
    (u.reg = s.reg ∧ u.coil = s.coil)
      ∨ ∃ i v, FrameRuns s i ∧ exec i (recordPoll t (consumeRx s)) = .next v ∧ u = watchdogUpdate t v := by
  rcases tick_next htick with
    ⟨-, -, rfl⟩ | ⟨-, -, r, -, rfl⟩ | ⟨harmed, hlatched, hvalid, i, s', pdu, hdecoded, hexec, -, -, -, rfl⟩
      | ⟨-, -, -, fc, -, rfl⟩ | ⟨-, -, rfl⟩
  · exact .inl ⟨rfl, rfl⟩
  · exact .inl ⟨rfl, rfl⟩
  · exact .inr ⟨i, sendResponse pdu s', ⟨harmed, hlatched, hvalid, hdecoded⟩, hexec, rfl⟩
  · rw [raiseException_eq]
    exact .inl ⟨by simp, by simp⟩
  · exact .inl ⟨rfl, rfl⟩

theorem tick_regRead_changed {t : Timestamp} {s u : State} {a : Nat} (htick : tick t s = .next u)
    (hne : u.regRead a ≠ s.regRead a) :
    ∃ i, FrameRuns s i ∧ (functionCode i = 0x06#8 ∨ functionCode i = 0x10#8)
      ∧ a < s.cfg.nReg ∧ s.cfg.regReadOnly a = false := by
  rcases tick_store_cases htick with ⟨hreg, -⟩ | ⟨i, v, hruns, hexec, rfl⟩
  · exact absurd (by rw [State.regRead, hreg, State.regRead]) hne
  · exact ⟨i, hruns, exec_regRead_changed (s := recordPoll t (consumeRx s)) hexec hne⟩

theorem tick_coilRead_changed {t : Timestamp} {s u : State} {a : Nat} (htick : tick t s = .next u)
    (hne : u.coilRead a ≠ s.coilRead a) :
    ∃ i, FrameRuns s i ∧ (functionCode i = 0x05#8 ∨ functionCode i = 0x0F#8)
      ∧ a < s.cfg.nCoil ∧ s.cfg.coilReadOnly a = false := by
  rcases tick_store_cases htick with ⟨-, hcoil⟩ | ⟨i, v, hruns, hexec, rfl⟩
  · exact absurd (by rw [State.coilRead, hcoil, State.coilRead]) hne
  · exact ⟨i, hruns, exec_coilRead_changed (s := recordPoll t (consumeRx s)) hexec hne⟩

/-! ### What a host call that changed a slot was -/

theorem hostCall_regRead_changed {call : HostCall} {s : State} {a : Nat}
    (hne : (hostCall call s).regRead a ≠ s.regRead a) : (∃ v, call = .setRegister a v) ∧ a < s.cfg.nReg := by
  rcases hostCall_cases call s with ⟨op, id, hcall⟩ | ⟨v, hcall⟩ | ⟨id, b, -, hcall⟩ | ⟨id, v, hid, rfl, hcall⟩
  · exact absurd (by rw [hcall, regRead_fatal]) hne
  · exact absurd (by rw [hcall, regRead_giveBack]) hne
  · exact absurd (by rw [hcall, regRead_coilWrite]) hne
  · by_cases ha : a = id
    · subst ha
      exact ⟨⟨v, rfl⟩, hid⟩
    · exact absurd (by rw [hcall, regRead_regWrite, if_neg ha]) hne

/-- The body that the three coil setters share (R232, R233, R234) changes its own coil at most. -/
theorem guardedCoilWrite_changed {op : HostOp} {id a : Nat} {b : Bool} {s : State}
    (hne : (if s.cfg.nCoil ≤ id then fatal op id s else s.coilWrite id b).coilRead a ≠ s.coilRead a) :
    id = a ∧ id < s.cfg.nCoil := by
  split at hne
  · exact absurd (coilRead_fatal ..) hne
  · rename_i hid
    by_cases ha : a = id
    · exact ⟨ha.symm, Nat.lt_of_not_le hid⟩
    · exact absurd (by rw [coilRead_coilWrite, if_neg ha]) hne

theorem hostCall_coilRead_changed {call : HostCall} {s : State} {a : Nat}
    (hne : (hostCall call s).coilRead a ≠ s.coilRead a) :
    (call = .setCoil a ∨ call = .clearCoil a ∨ call = .toggleCoil a) ∧ a < s.cfg.nCoil := by
  cases call with
  | setCoil id =>
    obtain ⟨rfl, hid⟩ := guardedCoilWrite_changed hne
    exact ⟨.inl rfl, hid⟩
  | clearCoil id =>
    obtain ⟨rfl, hid⟩ := guardedCoilWrite_changed hne
    exact ⟨.inr (.inl rfl), hid⟩
  | toggleCoil id =>
    obtain ⟨rfl, hid⟩ := guardedCoilWrite_changed hne
    exact ⟨.inr (.inr rfl), hid⟩
  | getCoil id | getRegister id | setRegister id value =>
    exact absurd (by simp only [hostCall]; split <;> rfl) hne
  | isMasterSilent => exact absurd rfl hne

/-! ### What a step that changed a slot was -/

theorem step_regRead_changed {s u : State} {a : Nat} (hstep : step s = .next u) (hne : u.regRead a ≠ s.regRead a) :
    (∃ t rest i, s.env = .tick t :: rest ∧ FrameRuns s i ∧ (functionCode i = 0x06#8 ∨ functionCode i = 0x10#8)
        ∧ a < s.cfg.nReg ∧ s.cfg.regReadOnly a = false)
      ∨ (∃ v rest, s.env = .host (.setRegister a v) :: rest ∧ a < s.cfg.nReg)
      ∨ (∃ t0 rest, s.env = .init t0 :: rest) := by
  rcases step_cases hstep with ⟨-, -, rfl⟩ | ⟨t0, rest, henv, -⟩ | ⟨-, e, rest, henv, hmove⟩
  · exact absurd rfl hne
  · exact .inr (.inr ⟨t0, rest, henv⟩)
  · rcases hmove with ⟨t, rfl, htick⟩ | ⟨bytes, -, -, -, rfl⟩ | ⟨-, -, -, rfl⟩ | ⟨call, rfl, rfl⟩
    · obtain ⟨i, ⟨harmed, hlatched, hvalid, hdecoded⟩, hwriter⟩ := tick_regRead_changed htick hne
      exact .inl ⟨t, rest, i, henv, ⟨harmed, hlatched, hvalid, hdecoded⟩, hwriter⟩
    · exact absurd (regRead_receive ..) hne
    · exact absurd (regRead_latchTx ..) hne
    · obtain ⟨⟨v, rfl⟩, ha⟩ := hostCall_regRead_changed hne
      exact .inr (.inl ⟨v, rest, henv, ha⟩)

theorem step_coilRead_changed {s u : State} {a : Nat} (hstep : step s = .next u)
    (hne : u.coilRead a ≠ s.coilRead a) :
    (∃ t rest i, s.env = .tick t :: rest ∧ FrameRuns s i ∧ (functionCode i = 0x05#8 ∨ functionCode i = 0x0F#8)
        ∧ a < s.cfg.nCoil ∧ s.cfg.coilReadOnly a = false)
      ∨ (∃ call rest, s.env = .host call :: rest
          ∧ (call = .setCoil a ∨ call = .clearCoil a ∨ call = .toggleCoil a) ∧ a < s.cfg.nCoil)
      ∨ (∃ t0 rest, s.env = .init t0 :: rest) := by
  rcases step_cases hstep with ⟨-, -, rfl⟩ | ⟨t0, rest, henv, -⟩ | ⟨-, e, rest, henv, hmove⟩
  · exact absurd rfl hne
  · exact .inr (.inr ⟨t0, rest, henv⟩)
  · rcases hmove with ⟨t, rfl, htick⟩ | ⟨bytes, -, -, -, rfl⟩ | ⟨-, -, -, rfl⟩ | ⟨call, rfl, rfl⟩
    · obtain ⟨i, ⟨harmed, hlatched, hvalid, hdecoded⟩, hwriter⟩ := tick_coilRead_changed htick hne
      exact .inl ⟨t, rest, i, henv, ⟨harmed, hlatched, hvalid, hdecoded⟩, hwriter⟩
    · exact absurd (coilRead_receive ..) hne
    · exact absurd (coilRead_latchTx ..) hne
    · exact .inr (.inl ⟨call, rest, henv, hostCall_coilRead_changed (s := { s with env := rest }) hne⟩)

/-- Settles O32: the inversion lemmas of a changed register and of a changed coil, with their read-only clause left
out. -/
theorem storeIsWrittenOnlyByItsWriters : Obligations.StoreIsWrittenOnlyByItsWriters := by
  intro s u a hstep
  constructor
  · intro hne
    rcases step_regRead_changed hstep hne with
      ⟨t, rest, i, henv, ⟨harmed, hlatched, hvalid, hdecoded⟩, hcode, ha, -⟩ | hhost | hinit
    · exact .inl ⟨t, rest, i, henv, harmed, hlatched, hvalid, hdecoded, hcode, ha⟩
    · exact .inr (.inl hhost)
    · exact .inr (.inr hinit)
  · intro hne
    rcases step_coilRead_changed hstep hne with
      ⟨t, rest, i, henv, ⟨harmed, hlatched, hvalid, hdecoded⟩, hcode, ha, -⟩ | ⟨call, rest, henv, hcall, ha⟩ | hinit
    · exact .inl ⟨t, rest, i, henv, harmed, hlatched, hvalid, hdecoded, hcode, ha⟩
    · refine .inr (.inl ⟨rest, ?_, ha⟩)
      rcases hcall with rfl | rfl | rfl
      · exact .inl henv
      · exact .inr (.inl henv)
      · exact .inr (.inr henv)
    · exact .inr (.inr hinit)

/-- Settles O31: of the three writers of a slot, a tick's instruction writes writable slots only (R72), and the other
two are the setter and the init that the statement excepts. -/
theorem onlyTheHostChangesReadOnlySlots : Obligations.OnlyTheHostChangesReadOnlySlots := by
  intro s u hstep hnoInit
  constructor
  · intro a hreadOnly hnoSetter
    by_contra hne
    rcases step_regRead_changed hstep hne with
      ⟨-, -, -, -, -, -, -, hwritable⟩ | ⟨v, rest, henv, -⟩ | ⟨t0, rest, henv⟩
    · exact absurd (hreadOnly.symm.trans hwritable) (by decide)
    · exact hnoSetter v rest henv
    · exact hnoInit t0 rest henv
  · intro a hreadOnly hnoSetter
    by_contra hne
    rcases step_coilRead_changed hstep hne with
      ⟨-, -, -, -, -, -, -, hwritable⟩ | ⟨call, rest, henv, hcall, -⟩ | ⟨t0, rest, henv⟩
    · exact absurd (hreadOnly.symm.trans hwritable) (by decide)
    · obtain ⟨hset, hclear, htoggle⟩ := hnoSetter rest
      rcases hcall with rfl | rfl | rfl
      · exact hset henv
      · exact hclear henv
      · exact htoggle henv
    · exact hnoInit t0 rest henv

end Sys2Proof.Machine
end

section
/-! The flags and the watchdog (R45, R259, R260): who writes a flag, that the handlers neither write nor read one, and
what every tick compares. -/

namespace Sys2Proof.Machine

/-! ### The handlers and the flags -/

/-- The state with its three flags replaced (R36, R37, R43). -/
def State.setFlags (rxDone txDone timeoutFlag : Bool) (s : State) : State :=
  { s with rxDone := rxDone, txDone := txDone, timeoutFlag := timeoutFlag }

section
variable (a b c : Bool) (s : State)

@[simp] theorem setFlags_cfg : (s.setFlags a b c).cfg = s.cfg := rfl

theorem readCoilRange_setFlags (fc : Byte) (start count : U16) :
    readCoilRange fc start count (s.setFlags a b c) = (readCoilRange fc start count s).setFlags a b c := by
  simp only [readCoilRange, setFlags_cfg]
  split <;> rfl

theorem readRegisterRange_setFlags (fc : Byte) (start count : U16) :
    readRegisterRange fc start count (s.setFlags a b c) = (readRegisterRange fc start count s).setFlags a b c := by
  simp only [readRegisterRange, setFlags_cfg]
  split <;> rfl

theorem applyCoilPattern_setFlags (address : Nat) (value4 value5 : Byte) :
    applyCoilPattern address value4 value5 (s.setFlags a b c)
      = (applyCoilPattern address value4 value5 s).setFlags a b c := by
  unfold applyCoilPattern
  split <;> rfl

theorem flowHook_setFlags (address : Nat) :
    flowHook address (s.setFlags a b c) = (flowHook address s).setFlags a b c := by
  unfold flowHook
  rw [apply_ite (State.setFlags a b c)]
  rfl

theorem writeCoilRange_setFlags (fc : Byte) (start count : U16) (bits : List Bool) :
    writeCoilRange fc start count bits (s.setFlags a b c) = (writeCoilRange fc start count bits s).setFlags a b c := by
  simp only [writeCoilRange_eq, endWriteLoop_eq, setFlags_cfg]
  rfl

theorem writeRegisterRange_setFlags (fc : Byte) (start count : U16) (values : List U16) :
    writeRegisterRange fc start count values (s.setFlags a b c)
      = (writeRegisterRange fc start count values s).setFlags a b c := by
  simp only [writeRegisterRange_eq, endWriteLoop_eq, setFlags_cfg]
  rfl

/-- No handler reads a flag: run with other flags, it does the same and carries those flags along. -/
theorem exec_setFlags (i : Instr) : exec i (s.setFlags a b c) = thenDo (State.setFlags a b c) (exec i s) := by
  cases i with
  | readCoils start count | readDiscreteInputs start count =>
    exact congrArg Host.Outcome.next (readCoilRange_setFlags ..)
  | readHoldingRegisters start count | readInputRegisters start count =>
    exact congrArg Host.Outcome.next (readRegisterRange_setFlags ..)
  | writeSingleCoil address value4 value5 =>
    simp only [exec, execWriteSingleCoil, applyCoilPattern_setFlags, setFlags_cfg]
    split <;> rfl
  | writeSingleRegister address value =>
    have hwrite : (s.setFlags a b c).regWrite address.toNat value = (s.regWrite address.toNat value).setFlags a b c := rfl
    simp only [exec, execWriteSingleRegister, hwrite, flowHook_setFlags, setFlags_cfg]
    split <;> rfl
  | writeMultipleCoils start count byteCount data =>
    simp only [exec, execWriteMultipleCoils, writeCoilRange_setFlags, setFlags_cfg]
    split <;> rfl
  | writeMultipleRegisters start count byteCount values =>
    simp only [exec, execWriteMultipleRegisters, writeRegisterRange_setFlags, setFlags_cfg]
    split <;> rfl

end

/-- No handler writes a flag. -/
theorem exec_keeps_flags (i : Instr) (s : State) :
    ∃ t, exec i s = .next t ∧ t.rxDone = s.rxDone ∧ t.txDone = s.txDone ∧ t.timeoutFlag = s.timeoutFlag := by
  obtain ⟨s', pdu, hexec, hserved, -⟩ := exec_served i s
  obtain ⟨-, -, -, hrxDone, htxDone, -, -, hflag, -⟩ := hserved.rest
  exact ⟨sendResponse pdu s', hexec, hrxDone, htxDone, hflag⟩

theorem hostCall_keeps_flags (call : HostCall) (s : State) :
    (hostCall call s).rxDone = s.rxDone ∧ (hostCall call s).txDone = s.txDone
      ∧ (hostCall call s).timeoutFlag = s.timeoutFlag := by
  rcases hostCall_cases call s with ⟨op, id, hcall⟩ | ⟨v, hcall⟩ | ⟨id, b, -, hcall⟩ | ⟨id, v, -, -, hcall⟩ <;>
    simp [hcall]

/-! ### What a tick does to the flags and to the poll time -/

/-- A tick clears the latch its phase waits for, or leaves the latches alone. -/
theorem tick_latches {t : Timestamp} {s u : State} (htick : tick t s = .next u) :
    (s.phase = .txBusy ∧ u.txDone = false ∧ u.rxDone = s.rxDone)
      ∨ (s.phase = .rxArmed ∧ u.rxDone = false ∧ u.txDone = s.txDone)
      ∨ (u.rxDone = s.rxDone ∧ u.txDone = s.txDone) := by
  rcases tick_next htick with
    ⟨hphase, -, rfl⟩ | ⟨hphase, -, r, -, rfl⟩ | ⟨hphase, -, -, i, s', pdu, -, -, hserved, -, -, rfl⟩
      | ⟨hphase, -, -, fc, -, rfl⟩ | ⟨-, -, rfl⟩
  · exact .inl ⟨hphase, by simp, by simp⟩
  · exact .inr (.inl ⟨hphase, by simp, by simp⟩)
  · obtain ⟨-, -, -, hrxDone, htxDone, -⟩ := hserved.rest
    exact .inr (.inl ⟨hphase, by simp [hrxDone], by simp [htxDone]⟩)
  · rw [raiseException_eq]
    exact .inr (.inl ⟨hphase, by simp, by simp⟩)
  · exact .inr (.inr ⟨by simp, by simp⟩)

/-- The comparison comes after the event, on the poll time the event may have moved (R238, D22). -/
theorem tick_timeoutFlag {t : Timestamp} {s u : State} (htick : tick t s = .next u) :
    u.timeoutFlag = timedOut t u.lastPoll := by
  rcases tick_next htick with
    ⟨-, -, rfl⟩ | ⟨-, -, r, -, rfl⟩ | ⟨-, -, -, i, s', pdu, -, -, -, -, -, rfl⟩ | ⟨-, -, -, fc, -, rfl⟩ | ⟨-, -, rfl⟩ <;>
  rw [watchdogUpdate_timeoutFlag, watchdogUpdate_lastPoll]

/-- A tick moves the poll time to its sample exactly when it finds a validated frame (R131, R42). -/
theorem tick_lastPoll {t : Timestamp} {s u : State} (htick : tick t s = .next u) :
    u.lastPoll = if s.phase = .rxArmed ∧ s.rxDone = true ∧ checkFrame s = none then t else s.lastPoll := by
  rcases tick_next htick with
    ⟨hphase, -, rfl⟩ | ⟨-, -, r, hcheck, rfl⟩ | ⟨hphase, hdone, hcheck, i, s', pdu, -, -, hserved, -, -, rfl⟩
      | ⟨hphase, hdone, hcheck, fc, -, rfl⟩ | ⟨-, hidle, rfl⟩
  · rw [if_neg (by simp [hphase])]
    simp
  · rw [if_neg (by simp [hcheck])]
    simp
  · obtain ⟨-, -, -, -, -, -, hpoll, -⟩ := hserved.rest
    rw [if_pos ⟨hphase, hdone, hcheck⟩, watchdogUpdate_lastPoll, sendResponse_lastPoll, hpoll, recordPoll_lastPoll]
  · rw [if_pos ⟨hphase, hdone, hcheck⟩, raiseException_eq]
    simp
  · rw [if_neg fun ⟨hphase, hdone, _⟩ => hidle ⟨hphase, hdone⟩]
    simp

theorem tick_total (t : Timestamp) (s : State) : ∃ u, tick t s = .next u := by
  rcases tick_cases t s with ⟨-, -, htick⟩ | ⟨-, -, htick⟩ | ⟨-, -, htick⟩
  · exact ⟨_, htick⟩
  · rcases processFrame_cases t (consumeRx s) with ⟨r, -, hframe⟩ | ⟨-, i, s', pdu, -, -, hframe, -⟩ | ⟨-, fc, -, hframe⟩ <;>
      exact ⟨_, by rw [htick, hframe, thenDo_next]⟩
  · exact ⟨_, htick⟩

/-! ### Which steps write a flag -/

theorem step_rxDone_cases {s u : State} (hstep : step s = .next u) :
    u.rxDone = s.rxDone
      ∨ (u.rxDone = true ∧ ∃ bytes rest, s.env = .rxComplete bytes :: rest)
      ∨ (u.rxDone = false ∧ ∃ t rest, s.env = .tick t :: rest ∧ s.phase = .rxArmed)
      ∨ (u.rxDone = false ∧ ∃ t0 rest, s.env = .init t0 :: rest) := by
  rcases step_cases hstep with ⟨-, -, rfl⟩ | ⟨t0, rest, henv, rfl⟩ | ⟨-, e, rest, henv, hmove⟩
  · exact .inl rfl
  · exact .inr (.inr (.inr ⟨rfl, t0, rest, henv⟩))
  · rcases hmove with ⟨t, rfl, htick⟩ | ⟨bytes, rfl, -, -, rfl⟩ | ⟨-, -, -, rfl⟩ | ⟨call, -, rfl⟩
    · rcases tick_latches htick with ⟨-, -, hrx⟩ | ⟨hphase, hrx, -⟩ | ⟨hrx, -⟩
      · exact .inl hrx
      · exact .inr (.inr (.inl ⟨hrx, t, rest, henv, hphase⟩))
      · exact .inl hrx
    · exact .inr (.inl ⟨receive_rxDone .., bytes, rest, henv⟩)
    · exact .inl (latchTx_rxDone _)
    · obtain ⟨hrx, -⟩ := hostCall_keeps_flags call { s with env := rest }
      exact .inl hrx

theorem step_txDone_cases {s u : State} (hstep : step s = .next u) :
    u.txDone = s.txDone
      ∨ (u.txDone = true ∧ ∃ rest, s.env = .txComplete :: rest)
      ∨ (u.txDone = false ∧ ∃ t rest, s.env = .tick t :: rest ∧ s.phase = .txBusy)
      ∨ (u.txDone = false ∧ ∃ t0 rest, s.env = .init t0 :: rest) := by
  rcases step_cases hstep with ⟨-, -, rfl⟩ | ⟨t0, rest, henv, rfl⟩ | ⟨-, e, rest, henv, hmove⟩
  · exact .inl rfl
  · exact .inr (.inr (.inr ⟨rfl, t0, rest, henv⟩))
  · rcases hmove with ⟨t, rfl, htick⟩ | ⟨bytes, -, -, -, rfl⟩ | ⟨rfl, -, -, rfl⟩ | ⟨call, -, rfl⟩
    · rcases tick_latches htick with ⟨hphase, htx, -⟩ | ⟨-, -, htx⟩ | ⟨-, htx⟩
      · exact .inr (.inr (.inl ⟨htx, t, rest, henv, hphase⟩))
      · exact .inl htx
      · exact .inl htx
    · exact .inl (receive_txDone ..)
    · exact .inr (.inl ⟨latchTx_txDone _, rest, henv⟩)
    · obtain ⟨-, htx, -⟩ := hostCall_keeps_flags call { s with env := rest }
      exact .inl htx

theorem step_timeoutFlag_cases {s u : State} (hstep : step s = .next u) :
    u.timeoutFlag = s.timeoutFlag
      ∨ (∃ t rest, s.env = .tick t :: rest ∧ u.timeoutFlag = timedOut t u.lastPoll)
      ∨ (∃ t0 rest, s.env = .init t0 :: rest) := by
  rcases step_cases hstep with ⟨-, -, rfl⟩ | ⟨t0, rest, henv, -⟩ | ⟨-, e, rest, henv, hmove⟩
  · exact .inl rfl
  · exact .inr (.inr ⟨t0, rest, henv⟩)
  · rcases hmove with ⟨t, rfl, htick⟩ | ⟨bytes, -, -, -, rfl⟩ | ⟨-, -, -, rfl⟩ | ⟨call, -, rfl⟩
    · exact .inr (.inl ⟨t, rest, henv, tick_timeoutFlag htick⟩)
    · exact .inl (receive_timeoutFlag ..)
    · exact .inl (latchTx_timeoutFlag _)
    · obtain ⟨-, -, hflag⟩ := hostCall_keeps_flags call { s with env := rest }
      exact .inl hflag

/-- Read from the two values of a latch: who set it, and who cleared it. -/
theorem latch_set_and_cleared {old new : Bool} {bySetter byTick byInit : Prop}
    (h : new = old ∨ (new = true ∧ bySetter) ∨ (new = false ∧ byTick) ∨ (new = false ∧ byInit)) :
    (old = false → new = true → bySetter) ∧ (old = true → new = false → byTick ∨ byInit) := by
  rcases h with rfl | ⟨rfl, hsetter⟩ | ⟨rfl, htick⟩ | ⟨rfl, hinit⟩
  · simp +contextual
  · simp [hsetter]
  · simp [htick]
  · simp [hinit]

/-- Settles O33: the steps by the three inversion lemmas, one for each flag; the handlers by `exec_keeps_flags` (none
writes one) and `exec_setFlags` (none reads one). -/
theorem flagsAreWrittenOnlyByTheirOwners : Obligations.FlagsAreWrittenOnlyByTheirOwners := by
  constructor
  · intro s u hstep
    obtain ⟨hrxSet, hrxCleared⟩ := latch_set_and_cleared (step_rxDone_cases hstep)
    obtain ⟨htxSet, htxCleared⟩ := latch_set_and_cleared (step_txDone_cases hstep)
    exact ⟨hrxSet, hrxCleared, htxSet, htxCleared, (step_timeoutFlag_cases hstep).resolve_left⟩
  · intro i s a b c
    obtain ⟨t, hexec, hrxDone, htxDone, hflag⟩ := exec_keeps_flags i s
    have hother : exec i (s.setFlags a b c) = .next (t.setFlags a b c) := by rw [exec_setFlags, hexec, thenDo_next]
    exact ⟨t, hexec, hrxDone, htxDone, hflag, hother⟩

/-! ### Outside FAULT a step makes the move at the head of the script -/

theorem step_tick_of_running {s : State} {t : Timestamp} {rest : List EnvMove} (henv : s.env = .tick t :: rest)
    (hrunning : s.phase ≠ .fault) : step s = tick t { s with env := rest } := by
  simp [step, henv, envMove, hrunning]

theorem step_rxComplete_of_running {s : State} {bytes : List Byte} {rest : List EnvMove}
    (henv : s.env = .rxComplete bytes :: rest) (hrunning : s.phase ≠ .fault) :
    step s = rxComplete bytes { s with env := rest } := by
  simp [step, henv, envMove, hrunning]

theorem step_txComplete_of_running {s : State} {rest : List EnvMove} (henv : s.env = .txComplete :: rest)
    (hrunning : s.phase ≠ .fault) : step s = txComplete { s with env := rest } := by
  simp [step, henv, envMove, hrunning]

/-- Settles O35: a tick always has a next state (`tick_total`), whose flag and poll time `tick_timeoutFlag` and
`tick_lastPoll` give. -/
theorem everyTickComparesTheWatchdog : Obligations.EveryTickComparesTheWatchdog := by
  intro s t rest henv hrunning
  obtain ⟨u, htick⟩ := tick_total t { s with env := rest }
  have hpoll := tick_lastPoll htick
  refine ⟨u, by rw [step_tick_of_running henv hrunning, htick], tick_timeoutFlag htick, ?_, ?_⟩
  · intro hvalidated
    exact hpoll.trans (if_pos hvalidated)
  · intro hnone
    exact hpoll.trans (if_neg hnone)

end Sys2Proof.Machine
end

section
/-! The transport's events and phase FAULT (R41, R253). -/

namespace Sys2Proof.Machine

/-- Settles O40: of the moves of `step_cases`, only the new init is left in FAULT (R41). -/
theorem faultIsLeftOnlyByInit : Obligations.FaultIsLeftOnlyByInit := by
  intro s u hfault hstep
  rcases step_cases hstep with ⟨-, hrunning, -⟩ | hinit | ⟨hrunning, -⟩
  · exact absurd hfault hrunning
  · exact hinit
  · exact absurd hfault hrunning

theorem rxByte_receive_within {bytes : List Byte} {k : Nat} {b : Byte} (s : State) (hk : k < 256)
    (hb : bytes[k]? = some b) : (receive bytes s).rxByte k = b := by
  rw [rxByte_receive, List.getElem?_take_of_lt hk, hb, Option.getD_some]

theorem rxByte_receive_beyond {bytes : List Byte} {k : Nat} (s : State) (hk : bytes.length ≤ k ∨ 256 ≤ k) :
    (receive bytes s).rxByte k = s.rxByte k := by
  have hnone : (bytes.take frameMax)[k]? = none := by
    rw [List.getElem?_eq_none_iff, List.length_take, frameMax]
    omega
  rw [rxByte_receive, hnone, Option.getD_none]

/-- Settles O41: the enabled event is `receive`, whose bytes the two lemmas above give; D24's refusal is the model's
other branch. -/
theorem receiveCompleteFillsTheBuffer : Obligations.ReceiveCompleteFillsTheBuffer := by
  intro s bytes rest henv hrunning
  rw [step_rxComplete_of_running henv hrunning]
  constructor
  · intro hphase hclear
    exact ⟨receive bytes { s with env := rest }, if_pos ⟨hphase, hclear⟩,
      fun _ _ hk hb => rxByte_receive_within _ hk hb, fun _ hk => rxByte_receive_beyond _ hk, rfl⟩
  · intro hnot
    exact if_neg hnot

/-- Settles O42: both branches of the model's transmit-complete event. -/
theorem transmitCompleteSetsItsLatch : Obligations.TransmitCompleteSetsItsLatch := by
  intro s rest henv hrunning
  rw [step_txComplete_of_running henv hrunning]
  constructor
  · intro hphase hclear
    exact if_pos ⟨hphase, hclear⟩
  · intro hnot
    exact if_neg hnot

end Sys2Proof.Machine
end

section
/-! Each field the decoder reads stands at offsets 1 to 255 of RxBuf (R77, R104, R133). -/

namespace Sys2Proof

open Sys2Proof.Machine

section
variable {rd rd' : Nat → Byte} (hagree : ∀ k, 1 ≤ k → k < 256 → rd k = rd' k)
include hagree

theorem be16_congr {k : Nat} (hlow : 1 ≤ k) (hhigh : k + 1 < 256) : be16 rd k = be16 rd' k := by
  rw [be16, be16, hagree k hlow (by omega), hagree (k + 1) (by omega) hhigh]

/-- `dataRoom` stops the DATA bytes at offset 253. -/
theorem coilData_congr (count : U16) : coilData rd count = coilData rd' count := by
  refine List.map_congr_left fun j hj => ?_
  have hroom : j < dataRoom := (List.mem_range.mp hj).trans_le (min_le_right ..)
  rw [dataRoom] at hroom
  exact hagree (7 + j) (by omega) (by omega)

/-- `dataRoom` stops the last register value at offsets 251 and 252. -/
theorem registerData_congr (count : U16) : registerData rd count = registerData rd' count := by
  refine List.map_congr_left fun k hk => ?_
  have hroom : k < dataRoom / 2 := (List.mem_range.mp hk).trans_le (min_le_right ..)
  rw [dataRoom] at hroom
  exact be16_congr hagree (by omega) (by omega)

end

/-- Settles O6: the function code and every operand field are the same in the two buffers, DATA by `coilData_congr` and
`registerData_congr`. -/
theorem decodeReadsOnlyTheReceiveBuffer : Obligations.DecodeReadsOnlyTheReceiveBuffer := by
  intro rd rd' hagree
  have hcode : rd 1 = rd' 1 := hagree 1 (by decide) (by decide)
  have hstart : be16 rd 2 = be16 rd' 2 := be16_congr hagree (by decide) (by decide)
  have hcount : be16 rd 4 = be16 rd' 4 := be16_congr hagree (by decide) (by decide)
  have hvalue4 : rd 4 = rd' 4 := hagree 4 (by decide) (by decide)
  have hvalue5 : rd 5 = rd' 5 := hagree 5 (by decide) (by decide)
  have hbyteCount : rd 6 = rd' 6 := hagree 6 (by decide) (by decide)
  rw [decode, decode, hcode, hstart, hcount, hvalue4, hvalue5, hbyteCount, coilData_congr hagree,
    registerData_congr hagree]

end Sys2Proof
end

section
/-! Decoding and encoding are inverse (R90, R92 to R94, R98, R100): both directions are read off
`decode_eq_instr_iff`, which says what a buffer holds that decodes to an instruction. -/

namespace Sys2Proof

open Sys2Proof.Machine

/-! ### A buffer that holds a list of bytes -/

/-- The bytes stand in the buffer `rd` from offset k on. -/
def Holds (rd : Nat → Byte) (k : Nat) (bytes : List Byte) : Prop :=
  ∀ j b, bytes[j]? = some b → rd (k + j) = b

section
variable (rd : Nat → Byte) (k : Nat)

@[simp] theorem holds_nil : Holds rd k [] := by
  simp [Holds]

@[simp] theorem holds_cons (b : Byte) (bs : List Byte) : Holds rd k (b :: bs) ↔ rd k = b ∧ Holds rd (k + 1) bs := by
  constructor
  · intro h
    refine ⟨h 0 b rfl, fun j c hc => ?_⟩
    rw [Nat.add_assoc, Nat.add_comm 1 j]
    exact h (j + 1) c hc
  · rintro ⟨hhead, htail⟩ (_ | j) c hc
    · exact hhead.trans (Option.some.inj hc)
    · rw [← Nat.add_assoc, Nat.add_right_comm]
      exact htail j c hc

theorem Holds.of_append {rd : Nat → Byte} {k : Nat} {front back : List Byte} (h : Holds rd k (front ++ back)) :
    Holds rd k front := by
  intro j b hb
  obtain ⟨hj, -⟩ := List.getElem?_eq_some_iff.mp hb
  exact h j b (by rwa [List.getElem?_append_left hj])

theorem be16_eq_iff (v : U16) : be16 rd k = v ↔ rd k = hi8 v ∧ rd (k + 1) = lo8 v := by
  constructor
  · rintro rfl
    simp
  · rintro ⟨hhigh, hlow⟩
    exact be16_of_bytes rd k v hhigh hlow

theorem holds_registerBytes (values : List U16) :
    Holds rd k (registerBytes values) ↔ ∀ j v, values[j]? = some v → be16 rd (k + 2 * j) = v := by
  induction values generalizing k with
  | nil => simp [registerBytes]
  | cons v vs ih =>
    rw [registerBytes_cons, holds_cons, holds_cons, ih, ← and_assoc, ← be16_eq_iff]
    constructor
    · rintro ⟨hhead, htail⟩ (_ | j) w hw
      · exact hhead.trans (Option.some.inj hw)
      · rw [show k + 2 * (j + 1) = k + 1 + 1 + 2 * j by omega]
        exact htail j w hw
    · intro h
      refine ⟨h 0 v rfl, fun j w hw => ?_⟩
      rw [show k + 1 + 1 + 2 * j = k + 2 * (j + 1) by omega]
      exact h (j + 1) w hw

end

/-! ### The DATA of a write-multiple request -/

/-- A table of n entries equals a list exactly when each entry of the list is the table's and the lengths agree. -/
theorem map_range_eq_iff {α : Type} (f : Nat → α) (n : Nat) (l : List α) :
    (List.range n).map f = l ↔ (∀ j a, l[j]? = some a → f j = a) ∧ l.length = n := by
  constructor
  · rintro rfl
    simp +contextual [List.getElem?_eq_some_iff]
  · rintro ⟨hentry, hlength⟩
    refine List.ext_getElem (by simp [hlength]) fun j _ hj => ?_
    rw [List.getElem_map, List.getElem_range]
    exact hentry j _ (List.getElem?_eq_getElem hj)

theorem coilData_eq_iff (rd : Nat → Byte) (count : U16) (data : List Byte) :
    coilData rd count = data ↔ Holds rd 7 data ∧ data.length = min (coilBytes count.toNat) dataRoom :=
  map_range_eq_iff ..

theorem registerData_eq_iff (rd : Nat → Byte) (count : U16) (values : List U16) :
    registerData rd count = values
      ↔ Holds rd 7 (registerBytes values) ∧ values.length = min count.toNat (dataRoom / 2) := by
  rw [holds_registerBytes]
  exact map_range_eq_iff ..

/-! ### What a buffer holds that decodes to an instruction -/

/-- The instruction carries as much DATA as the decoder reads for its count (R94; log entry 7). -/
def Instr.DataAsDecoded : Instr → Prop
  | .readCoils _ _ | .readDiscreteInputs _ _ | .readHoldingRegisters _ _ | .readInputRegisters _ _
  | .writeSingleCoil _ _ _ | .writeSingleRegister _ _ => True
  | .writeMultipleCoils _ count _ data => data.length = min (coilBytes count.toNat) dataRoom
  | .writeMultipleRegisters _ count _ values => values.length = min count.toNat (dataRoom / 2)

theorem Instr.dataAsDecoded_of_wf {i : Instr} (hwf : i.wf = true) : i.DataAsDecoded := by
  cases i with
  | readCoils | readDiscreteInputs | readHoldingRegisters | readInputRegisters | writeSingleCoil
  | writeSingleRegister => trivial
  | writeMultipleCoils start count byteCount data =>
    obtain ⟨hlength, hfits⟩ := (wf_writeMultipleCoils ..).mp hwf
    rw [Instr.DataAsDecoded, coilBytes, dataRoom]
    omega
  | writeMultipleRegisters start count byteCount values =>
    obtain ⟨hlength, hfits⟩ := (wf_writeMultipleRegisters ..).mp hwf
    rw [Instr.DataAsDecoded, dataRoom]
    omega

/-- The codes of the map R100. -/
def functionCodes : List Byte := [0x01#8, 0x02#8, 0x03#8, 0x04#8, 0x05#8, 0x06#8, 0x0F#8, 0x10#8]

/-- The function code of a decoded instruction is the byte at offset 1; a code outside the map decodes to none (R100,
R101). -/
theorem decode_functionCode_cases (rd : Nat → Byte) :
    (∃ i, decode rd = .instr i ∧ rd 1 = functionCode i)
      ∨ (rd 1 ∉ functionCodes ∧ decode rd = .illegalFunction (rd 1)) := by
  rcases decode_cases rd with
    ⟨hcode, h⟩ | ⟨hcode, h⟩ | ⟨hcode, h⟩ | ⟨hcode, h⟩ | ⟨hcode, h⟩ | ⟨hcode, h⟩ | ⟨hcode, h⟩ | ⟨hcode, h⟩ | hillegal
  case inr.inr.inr.inr.inr.inr.inr.inr => exact .inr hillegal
  all_goals exact .inl ⟨_, h, hcode⟩

theorem functionCode_of_decode {rd : Nat → Byte} {i : Instr} (h : decode rd = .instr i) : rd 1 = functionCode i := by
  rcases decode_functionCode_cases rd with ⟨j, hdecode, hcode⟩ | ⟨-, hdecode⟩
  · obtain rfl : j = i := by simpa [hdecode] using h
    exact hcode
  · simp [hdecode] at h

/-- Operands begin with two big-endian fields (R92, R93, R94). -/
theorem holds_twoFields (rd : Nat → Byte) (v w : U16) (rest : List Byte) :
    Holds rd 2 (hi8 v :: lo8 v :: hi8 w :: lo8 w :: rest) ↔ be16 rd 2 = v ∧ be16 rd 4 = w ∧ Holds rd 6 rest := by
  simp [be16_eq_iff, and_assoc]

/-- The operands of a write-multiple request end in BYTECOUNT and DATA (R94). -/
theorem holds_writeMultipleOperands (rd : Nat → Byte) (start count : U16) (byteCount : Byte) (data : List Byte) :
    Holds rd 2 ([hi8 start, lo8 start, hi8 count, lo8 count, byteCount] ++ data)
      ↔ be16 rd 2 = start ∧ be16 rd 4 = count ∧ rd 6 = byteCount ∧ Holds rd 7 data :=
  (holds_twoFields rd start count (byteCount :: data)).trans (by rw [holds_cons])

/-- Once the function code is right, the operand fields decide (R92 to R94). -/
theorem decode_eq_instr_iff_of_code {rd : Nat → Byte} {i : Instr} (hcode : rd 1 = functionCode i) :
    decode rd = .instr i ↔ Holds rd 2 (operandBytes i) ∧ i.DataAsDecoded := by
  cases i with
  | readCoils start count | readDiscreteInputs start count | readHoldingRegisters start count
  | readInputRegisters start count | writeSingleRegister start count =>
    rw [operandBytes, holds_twoFields]
    simp [decode, hcode, functionCode, Instr.DataAsDecoded]
  | writeSingleCoil address value4 value5 =>
    simp [decode, hcode, functionCode, operandBytes, Instr.DataAsDecoded, be16_eq_iff, and_assoc]
  | writeMultipleCoils start count byteCount data =>
    have hdecode : decode rd = .instr (.writeMultipleCoils start count byteCount data)
        ↔ be16 rd 2 = start ∧ be16 rd 4 = count ∧ rd 6 = byteCount ∧ coilData rd count = data := by
      simp +contextual [decode, hcode, functionCode]
    rw [hdecode, coilData_eq_iff, operandBytes, holds_writeMultipleOperands, Instr.DataAsDecoded]
    simp only [and_assoc]
  | writeMultipleRegisters start count byteCount values =>
    have hdecode : decode rd = .instr (.writeMultipleRegisters start count byteCount values)
        ↔ be16 rd 2 = start ∧ be16 rd 4 = count ∧ rd 6 = byteCount ∧ registerData rd count = values := by
      simp +contextual [decode, hcode, functionCode]
    rw [hdecode, registerData_eq_iff, operandBytes, holds_writeMultipleOperands, Instr.DataAsDecoded]
    simp only [and_assoc]

/-- A buffer decodes to an instruction exactly when the request's bytes stand in it from offset 1 on, and the
instruction's DATA is all that the decoder reads. -/
theorem decode_eq_instr_iff (rd : Nat → Byte) (i : Instr) :
    decode rd = .instr i ↔ Holds rd 1 (requestPdu i) ∧ i.DataAsDecoded := by
  rw [requestPdu, holds_cons, and_assoc]
  constructor
  · intro h
    have hcode := functionCode_of_decode h
    exact ⟨hcode, (decode_eq_instr_iff_of_code hcode).mp h⟩
  · rintro ⟨hcode, hoperands⟩
    exact (decode_eq_instr_iff_of_code hcode).mpr hoperands

/-- A buffer that begins with a frame holds its request from offset 1 on (R90). -/
theorem holds_requestPdu_of_encode {rd : Nat → Byte} {addr : Byte} {i : Instr} (h : Holds rd 0 (encode addr i)) :
    Holds rd 1 (requestPdu i) := by
  obtain ⟨-, hpdu⟩ := (holds_cons ..).mp h.of_append
  exact hpdu

/-- Settles O2: the frame's bytes are the request's, and a well-formed request carries what the decoder reads. -/
theorem decodeOfEncodeIsTheInstruction : Obligations.DecodeOfEncodeIsTheInstruction := by
  intro addr i rd hwf hframe
  have hholds : Holds rd 0 (encode addr i) := fun k b hb => by
    rw [Nat.zero_add]
    exact hframe k b hb
  exact (decode_eq_instr_iff rd i).mpr ⟨holds_requestPdu_of_encode hholds, Instr.dataAsDecoded_of_wf hwf⟩

/-- Settles O3: the other direction of `decode_eq_instr_iff`. -/
theorem encodeOfDecodedGivesTheBytesRead : Obligations.EncodeOfDecodedGivesTheBytesRead := by
  intro rd i hdecode k b hb
  obtain ⟨hholds, -⟩ := (decode_eq_instr_iff rd i).mp hdecode
  rw [Nat.add_comm]
  exact hholds k b hb

/-! ### The DATA of a decoded write-multiple request -/

theorem coilData_of_decode {rd : Nat → Byte} {start count : U16} {byteCount : Byte} {data : List Byte}
    (h : decode rd = .instr (.writeMultipleCoils start count byteCount data)) : coilData rd count = data := by
  obtain ⟨hoperands, hlength⟩ := (decode_eq_instr_iff_of_code (functionCode_of_decode h)).mp h
  obtain ⟨-, -, -, hdata⟩ := (holds_writeMultipleOperands ..).mp hoperands
  exact (coilData_eq_iff ..).mpr ⟨hdata, hlength⟩

theorem registerData_of_decode {rd : Nat → Byte} {start count : U16} {byteCount : Byte} {values : List U16}
    (h : decode rd = .instr (.writeMultipleRegisters start count byteCount values)) :
    registerData rd count = values := by
  obtain ⟨hoperands, hlength⟩ := (decode_eq_instr_iff_of_code (functionCode_of_decode h)).mp h
  obtain ⟨-, -, -, hdata⟩ := (holds_writeMultipleOperands ..).mp hoperands
  exact (registerData_eq_iff ..).mpr ⟨hdata, hlength⟩

/-- Settles O5: the DATA is `coilData` or `registerData` of the buffer, whose entries stand from offset 7 on; a count in
range is not cut by `dataRoom`. -/
theorem decodedWritesCarryTheDataAtOffsetSeven : Obligations.DecodedWritesCarryTheDataAtOffsetSeven := by
  constructor
  · intro rd start count bc data hdecode hcount
    obtain rfl := coilData_of_decode hdecode
    refine ⟨length_coilData rd count hcount, fun j hj => ?_⟩
    have hentry := List.getElem?_eq_getElem hj
    rw [hentry, eq_of_getElem?_coilData rd count j _ hentry]
  · intro rd start count bc values hdecode hcount
    obtain rfl := registerData_of_decode hdecode
    refine ⟨length_registerData rd count hcount, fun k v hv => ?_⟩
    obtain rfl := eq_of_getElem?_registerData rd count k v hv
    exact ⟨hi8_be16 .., by rw [lo8_be16, Nat.add_right_comm]⟩

/-! ### The function-code map R100 -/

/-- Settles O1, by evaluating the decoder on the eight frames. -/
theorem writtenFramesDecodeToTheirInstructions : Obligations.WrittenFramesDecodeToTheirInstructions := by
  unfold Obligations.WrittenFramesDecodeToTheirInstructions
  decide

theorem functionCode_mem (i : Instr) : functionCode i ∈ functionCodes := by
  cases i <;> simp [functionCode, functionCodes]

/-- The map is exact (R100). -/
theorem exists_decode_eq_instr_iff (rd : Nat → Byte) : (∃ i, decode rd = .instr i) ↔ rd 1 ∈ functionCodes := by
  constructor
  · rintro ⟨i, hdecode⟩
    rw [functionCode_of_decode hdecode]
    exact functionCode_mem i
  · intro hmem
    rcases decode_functionCode_cases rd with ⟨i, hdecode, -⟩ | ⟨hcode, -⟩
    · exact ⟨i, hdecode⟩
    · exact absurd hmem hcode

theorem decode_eq_illegalFunction {rd : Nat → Byte} (hcode : rd 1 ∉ functionCodes) :
    decode rd = .illegalFunction (rd 1) := by
  rcases decode_functionCode_cases rd with ⟨i, hdecode, -⟩ | ⟨-, hdecode⟩
  · exact absurd ((exists_decode_eq_instr_iff rd).mp ⟨i, hdecode⟩) hcode
  · exact hdecode

/-- The mask has bit 7 alone. -/
theorem or_0x80_eq_self {fc : Byte} (h : fc.getLsbD 7 = true) : fc ||| 0x80#8 = fc := by
  have hmask : (0x80#8 : Byte) = BitVec.twoPow 8 7 := rfl
  apply BitVec.eq_of_getLsbD_eq
  intro i hi
  rw [hmask, BitVec.getLsbD_or, BitVec.getLsbD_twoPow]
  by_cases hbit : i = 7
  · simp [hbit, h]
  · simp [Ne.symm hbit]

/-- Settles O4: by the map, and by the response that ILLEGAL_FUNCTION raises. -/
theorem illegalFunctionCodesAnswerIllegalFunction : Obligations.IllegalFunctionCodesAnswerIllegalFunction := by
  refine ⟨exists_decode_eq_instr_iff, fun s hcode => ?_, fun fc h => or_0x80_eq_self h⟩
  refine ⟨raiseException (s.rxByte 1) .illegalFunction s, ?_, answered_sendResponse .., ?_, ?_,
    keepsRest_sendResponse ..⟩
  · rw [dispatch, decode_eq_illegalFunction hcode]
  · exact fun _ => regRead_raiseException ..
  · exact fun _ => coilRead_raiseException ..

end Sys2Proof
end

section
/-! The format of a response (R95, R103, R210, R215). -/

namespace Sys2Proof.Machine

/-- A PDU that answers function code fc: it begins with fc, or it is the exception with one of the three codes that are
raised (R95, R103, R210). -/
def ResponsePdu (fc : Byte) (pdu : List Byte) : Prop :=
  (∃ rest, pdu = fc :: rest)
    ∨ ∃ code, (code = .illegalFunction ∨ code = .illegalDataAddress ∨ code = .illegalDataValue)
        ∧ pdu = [fc ||| 0x80#8, excByte code]

/-- The state has just sent a response to function code fc. -/
def Responds (fc : Byte) (t : State) : Prop := ∃ s pdu, t = sendResponse pdu s ∧ ResponsePdu fc pdu

theorem responds_sendResponse (fc : Byte) (rest : List Byte) (s : State) : Responds fc (sendResponse (fc :: rest) s) :=
  ⟨s, _, rfl, .inl ⟨rest, rfl⟩⟩

section
variable {fc : Byte} {code : ExcCode}

theorem responds_raiseException (s : State)
    (hcode : code = .illegalFunction ∨ code = .illegalDataAddress ∨ code = .illegalDataValue) :
    Responds fc (raiseException fc code s) :=
  ⟨s, _, raiseException_eq .., .inr ⟨code, hcode, rfl⟩⟩

/-- A slot check raises ILLEGAL_DATA_ADDRESS (R170, R171). -/
theorem responds_of_slotError {cap : Nat} {readOnly : Nat → Bool} {address : U16} (s : State)
    (h : slotError cap readOnly address = some code) : Responds fc (raiseException fc code s) :=
  responds_raiseException s (.inr (.inl (slotError_eq_some _ _ _ _ h)))

/-- A range check raises ILLEGAL_DATA_ADDRESS or ILLEGAL_DATA_VALUE, its range code being one of the two (R251). -/
theorem responds_of_rangeError {max cap : Nat} {rangeCode : ExcCode} {start count : U16} (s : State)
    (h : rangeError max cap rangeCode start count = some code)
    (hrange : rangeCode = .illegalDataAddress ∨ rangeCode = .illegalDataValue) :
    Responds fc (raiseException fc code s) := by
  rcases rangeError_eq_some _ _ _ _ _ _ h with rfl | rfl
  · exact responds_raiseException s (.inr (.inr rfl))
  · exact responds_raiseException s (.inr hrange)

end

section
variable (fc : Byte) (start count : U16) (s : State)

theorem readCoilRange_responds : Responds fc (readCoilRange fc start count s) := by
  unfold readCoilRange
  split
  · exact responds_of_rangeError s ‹_› (.inr rfl)
  · exact responds_sendResponse ..

theorem readRegisterRange_responds : Responds fc (readRegisterRange fc start count s) := by
  unfold readRegisterRange
  split
  · exact responds_of_rangeError s ‹_› (.inl rfl)
  · exact responds_sendResponse ..

theorem endWriteLoop_responds (finished : Bool) : Responds fc (endWriteLoop fc start count finished s) := by
  cases finished with
  | true => exact responds_sendResponse ..
  | false => exact responds_raiseException s (.inr (.inl rfl))

end

theorem exec_responds {i : Instr} {s t : State} (hexec : exec i s = .next t) : Responds (functionCode i) t := by
  cases i with
  | readCoils start count | readDiscreteInputs start count =>
    cases hexec
    exact readCoilRange_responds ..
  | readHoldingRegisters start count | readInputRegisters start count =>
    cases hexec
    exact readRegisterRange_responds ..
  | writeSingleCoil address value4 value5 =>
    simp only [exec, execWriteSingleCoil] at hexec
    split at hexec <;> cases hexec
    · exact responds_of_slotError s ‹_›
    · exact responds_sendResponse ..
  | writeSingleRegister address value =>
    simp only [exec, execWriteSingleRegister] at hexec
    split at hexec <;> cases hexec
    · exact responds_of_slotError s ‹_›
    · exact responds_sendResponse ..
  | writeMultipleCoils start count byteCount data =>
    simp only [exec, execWriteMultipleCoils] at hexec
    split at hexec <;> cases hexec
    · exact responds_of_rangeError s ‹_› (.inl rfl)
    · exact endWriteLoop_responds ..
  | writeMultipleRegisters start count byteCount values =>
    simp only [exec, execWriteMultipleRegisters] at hexec
    split at hexec <;> cases hexec
    · exact responds_of_rangeError s ‹_› (.inl rfl)
    · exact endWriteLoop_responds ..

/-- A frame is three bytes longer than its PDU (R90). -/
theorem exec_txBuf_length {i : Instr} {s t : State} (hexec : exec i s = .next t) :
    5 ≤ t.txBuf.length ∧ t.txBuf.length ≤ 71 := by
  obtain ⟨s', pdu, hanswer, -, hpos, hle⟩ := exec_served i s
  obtain rfl : sendResponse pdu s' = t := by simpa [hanswer] using hexec
  rw [sendResponse_txBuf, length_sealFrame]
  omega

/-- Settles O11: the length by `exec_served`, the PDU by `exec_responds`. -/
theorem responsesHaveTheirFormat : Obligations.ResponsesHaveTheirFormat := by
  intro i s t hexec
  obtain ⟨hpos, hle⟩ := exec_txBuf_length hexec
  refine ⟨hpos, hle, ?_⟩
  obtain ⟨s', pdu, rfl, ⟨rest, rfl⟩ | ⟨code, hcode, rfl⟩⟩ := exec_responds hexec
  · exact .inl rfl
  · refine .inr ⟨rfl, rfl, ?_⟩
    rcases hcode with rfl | rfl | rfl
    · exact .inl rfl
    · exact .inr (.inl rfl)
    · exact .inr (.inr rfl)

end Sys2Proof.Machine
end

section
/-! A delivered request, from the transport's event to the instruction it runs (R126 to R133, R238, R253). -/

namespace Sys2Proof.Machine

/-! ### The frame path from RxBuf -/

/-- The tick of a latched, validated frame runs what RxBuf decodes to (R131, R132, R238). -/
theorem tick_of_frameRuns {s : State} {i : Instr} (hruns : FrameRuns s i) (t : Timestamp) :
    tick t s = thenDo (watchdogUpdate t) (exec i { s with rxDone := false, lastPoll := t }) := by
  obtain ⟨harmed, hlatched, hvalid, hdecoded⟩ := hruns
  have hcheck : checkFrame (consumeRx s) = none := hvalid
  have hdecode : decode (recordPoll t (consumeRx s)).rxByte = .instr i := hdecoded
  rw [tick, consumeEvent, if_neg (by simp [harmed]), if_pos ⟨harmed, hlatched⟩, processFrame, hcheck]
  simp only [dispatch, hdecode]
  rfl

theorem step_of_frameRuns {s : State} {i : Instr} {t : Timestamp} {rest : List EnvMove}
    (henv : s.env = .tick t :: rest) (hruns : FrameRuns s i) :
    step s = thenDo (watchdogUpdate t) (exec i { s with env := rest, rxDone := false, lastPoll := t }) := by
  obtain ⟨harmed, hlatched, hvalid, hdecoded⟩ := hruns
  rw [step_tick_of_running henv (by simp [harmed])]
  exact tick_of_frameRuns (s := { s with env := rest }) ⟨harmed, hlatched, hvalid, hdecoded⟩ t

/-- The received bytes are the delivered ones where they fit in RxBuf (R126, R253). -/
theorem rxFrame_receive {bytes : List Byte} (hfits : bytes.length ≤ 256) (s : State) :
    rxFrame (receive bytes s) = bytes := by
  refine List.ext_getElem (by simp [rxFrame]) fun k _ hk => ?_
  simp only [rxFrame, List.getElem_map, List.getElem_range]
  exact rxByte_receive_within s (hk.trans_le hfits) (List.getElem?_eq_getElem hk)

theorem verify_sealFrame (addr : Byte) (pdu : List Byte) : verify (sealFrame addr pdu) = some true := by
  rw [sealFrame, crcWire, verify_append]
  simp

/-- A sealed frame for this slave passes the validator (R127, R128, R129). -/
theorem checkFrame_receive_sealFrame {pdu : List Byte} (s : State) (hmin : 1 ≤ pdu.length) (hmax : pdu.length ≤ 253) :
    checkFrame (receive (sealFrame s.cfg.slaveAddr pdu) s) = none := by
  have hlength := length_sealFrame s.cfg.slaveAddr pdu
  have haddr : (receive (sealFrame s.cfg.slaveAddr pdu) s).rxByte 0 = s.cfg.slaveAddr :=
    rxByte_receive_within s (by decide) rfl
  rw [checkFrame, rxFrame_receive (by omega), verify_sealFrame, receive_rxLen, receive_cfg, frameMin, frameMax,
    if_neg (by omega), if_neg (not_not.mpr haddr), if_pos rfl]

theorem frameLength_of_wf (i : Instr) : Laws.FrameLength.Statement i := by
  cases i with
  | readCoils start count => exact Laws.FrameLength.readCoils start count
  | readDiscreteInputs start count => exact Laws.FrameLength.readDiscreteInputs start count
  | readHoldingRegisters start count => exact Laws.FrameLength.readHoldingRegisters start count
  | readInputRegisters start count => exact Laws.FrameLength.readInputRegisters start count
  | writeSingleCoil address value4 value5 => exact Laws.FrameLength.writeSingleCoil address value4 value5
  | writeSingleRegister address value => exact Laws.FrameLength.writeSingleRegister address value
  | writeMultipleCoils start count byteCount data =>
    exact Laws.FrameLength.writeMultipleCoils start count byteCount data
  | writeMultipleRegisters start count byteCount values =>
    exact Laws.FrameLength.writeMultipleRegisters start count byteCount values

/-- The request's bytes fit between the address and the CRC of a frame (R90, R94). -/
theorem length_requestPdu_of_wf {i : Instr} (hwf : i.wf = true) :
    1 ≤ (requestPdu i).length ∧ (requestPdu i).length ≤ 253 := by
  obtain ⟨hlength, hmin, hmax⟩ := frameLength_of_wf i hwf 0#8
  rw [encode, length_sealFrame] at hlength
  rw [frameMin] at hmin
  rw [frameMax] at hmax
  omega

/-- Whatever RxBuf held, a received well-formed request stands in it validated and decodes to its instruction. -/
theorem frameRuns_receive_encode {s : State} {i : Instr} (hwf : i.wf = true) (harmed : s.phase = .rxArmed) :
    FrameRuns (receive (encode s.cfg.slaveAddr i) s) i := by
  obtain ⟨hmin, hmax⟩ := length_requestPdu_of_wf hwf
  refine ⟨harmed, rfl, checkFrame_receive_sealFrame s hmin hmax, ?_⟩
  refine decodeOfEncodeIsTheInstruction s.cfg.slaveAddr i _ hwf fun k b hb => ?_
  obtain ⟨hk, -⟩ := List.getElem?_eq_some_iff.mp hb
  rw [encode, length_sealFrame] at hk
  exact rxByte_receive_within s (by omega) hb

/-- Settles O13: the event is `receive`, after which RxBuf holds a frame that runs the instruction. -/
theorem receivedFrameRunsItsInstruction : Obligations.ReceivedFrameRunsItsInstruction := by
  intro s t rest i hwf harmed hclear henv
  have hruns := frameRuns_receive_encode (s := { s with env := .tick t :: rest }) hwf harmed
  refine ⟨receive (encode s.cfg.slaveAddr i) { s with env := .tick t :: rest }, ?_, rfl, rfl, rfl, rfl,
    step_of_frameRuns rfl hruns⟩
  rw [step_rxComplete_of_running henv (by simp [harmed])]
  exact if_pos ⟨harmed, hclear⟩

end Sys2Proof.Machine
end

section
/-! The CRC (R121 to R125): its table forms, and the detection of a changed byte. -/

namespace Sys2Proof.Machine

/-! ### One inner step, bit by bit -/

theorem getLsbD_crcBit (c : U16) (i : Nat) :
    (crcBit c).getLsbD i = (c.getLsbD (i + 1) ^^ (c.getLsbD 0 && (0xA001#16).getLsbD i)) := by
  unfold crcBit
  cases c.getLsbD 0 <;> simp [Nat.add_comm 1 i]

theorem crcBit_xor (a b : U16) : crcBit (a ^^^ b) = crcBit a ^^^ crcBit b := by
  refine BitVec.eq_of_getLsbD_eq fun i _ => ?_
  simp only [getLsbD_crcBit, BitVec.getLsbD_xor, Bool.and_xor_distrib_right, Bool.xor_assoc, Bool.xor_left_comm]

/-- The polynomial has bit 15, so the bit shifted out can be read off the result. -/
theorem crcBit_injective : Function.Injective crcBit := by
  intro a b h
  have hbit (i : Nat) := congrArg (BitVec.getLsbD · i) h
  simp only [getLsbD_crcBit] at hbit
  have hlow : a.getLsbD 0 = b.getLsbD 0 := by simpa using hbit 15
  refine BitVec.eq_of_getLsbD_eq fun i _ => ?_
  cases i with
  | zero => exact hlow
  | succ j => simpa only [hlow, Bool.xor_left_inj] using hbit j

theorem repeat_crcBit_xor (n : Nat) (a b : U16) :
    Nat.repeat crcBit n (a ^^^ b) = Nat.repeat crcBit n a ^^^ Nat.repeat crcBit n b := by
  induction n with
  | zero => rfl
  | succ n ih => rw [Nat.repeat, ih, crcBit_xor, Nat.repeat, Nat.repeat]

theorem repeat_crcBit_injective (n : Nat) : Function.Injective (Nat.repeat crcBit n) := by
  induction n with
  | zero => exact Function.injective_id
  | succ n ih => exact crcBit_injective.comp ih

/-- Steps that find only clear bits at the bottom just shift. -/
theorem repeat_crcBit_eq_shift {n : Nat} {c : U16} (hclear : ∀ i < n, c.getLsbD i = false) :
    Nat.repeat crcBit n c = c >>> n := by
  induction n with
  | zero => simp [Nat.repeat]
  | succ n ih =>
    have hlow : (c >>> n).getLsbD 0 = false := by simpa using hclear n (by omega)
    rw [Nat.repeat, ih fun i hi => hclear i (by omega), crcBit, hlow, BitVec.shiftRight_add]
    rfl

/-! ### The accumulator as its two halves -/

theorem hi8_append_lo8 (c : U16) : (hi8 c ++ lo8 c : BitVec 16) = c :=
  (BitVec.extractLsb'_append_extractLsb'_eq_extractLsb' (start₁ := 0) rfl).trans BitVec.extractLsb'_eq_self

theorem lo8_append (hi lo : Byte) : lo8 (hi ++ lo) = lo :=
  BitVec.extractLsb'_append_eq_right

theorem append_ushiftRight (hi lo : Byte) : (hi ++ lo : BitVec 16) >>> 8 = 0#8 ++ hi :=
  (BitVec.ushiftRight_eq_extractLsb'_of_lt (by decide)).trans (congrArg (0#8 ++ ·) BitVec.extractLsb'_append_eq_left)

theorem append_xor_setWidth (hi lo b : Byte) : (hi ++ lo : BitVec 16) ^^^ b.setWidth 16 = hi ++ (lo ^^^ b) := by
  have hbyte : b.setWidth 16 = (0#8 ++ b : BitVec 16) := BitVec.setWidth_eq_append (by decide)
  rw [hbyte, BitVec.xor_append, BitVec.xor_zero]

/-- The eight inner steps are linear: they shift the high half down and act on the low half alone (R122). -/
theorem repeat_crcBit_append (hi lo : Byte) :
    Nat.repeat crcBit 8 (hi ++ lo : BitVec 16) = (0#8 ++ hi : BitVec 16) ^^^ crcTable lo := by
  have hsplit : (hi ++ lo : BitVec 16) = (hi ++ 0#8 : BitVec 16) ^^^ lo.setWidth 16 := by
    rw [append_xor_setWidth, BitVec.zero_xor]
  have hclear : ∀ i < 8, (hi ++ 0#8 : BitVec 16).getLsbD i = false := fun i hlow => by
    rw [BitVec.getLsbD_append, if_pos hlow]
    exact BitVec.getLsbD_zero
  rw [hsplit, repeat_crcBit_xor, repeat_crcBit_eq_shift hclear, append_ushiftRight, crcTable]

theorem crcByte_append (hi lo b : Byte) :
    crcByte (hi ++ lo) b = (0#8 ++ hi : BitVec 16) ^^^ crcTable (lo ^^^ b) := by
  rw [crcByte, append_xor_setWidth, repeat_crcBit_append]

/-- One byte of the table form (R122). -/
theorem crcByte_eq_table (c : U16) (b : Byte) :
    crcByte c b = (c >>> 8) ^^^ crcTable (lo8 (c ^^^ b.setWidth 16)) := by
  rw [← hi8_append_lo8 c, crcByte_append, append_ushiftRight, append_xor_setWidth, lo8_append]

/-- One byte of the two-accumulator form (R122). -/
theorem crcByte_eq_halves (hi lo b : Byte) :
    crcByte (hi ++ lo) b = hi8 (crcTable (lo ^^^ b)) ++ (hi ^^^ lo8 (crcTable (lo ^^^ b))) := by
  rw [crcByte_append, ← hi8_append_lo8 (crcTable (lo ^^^ b)), BitVec.xor_append, BitVec.zero_xor, hi8_append_lo8]

/-- Settles O7: each form agrees with the bit-serial one byte by byte. -/
theorem crcTableFormsAgreeWithTheBitSerialForm : Obligations.CrcTableFormsAgreeWithTheBitSerialForm := by
  intro s
  have hseed : (0xFF#8 ++ 0xFF#8 : BitVec 16) = 0xFFFF#16 := by decide
  constructor
  · exact List.foldl_ext _ _ _ fun c b _ => (crcByte_eq_table c b).symm
  · rw [crc16, ← hseed]
    refine (List.foldl_hom (init := (0xFF#8, 0xFF#8)) (fun h : Byte × Byte => (h.1 ++ h.2 : BitVec 16)) ?_).symm
    exact fun h b => crcByte_eq_halves h.1 h.2 b

/-! ### A changed byte -/

theorem crcByte_injective_left (b : Byte) : Function.Injective (crcByte · b) := fun _ _ h =>
  (BitVec.xor_left_inj _).mp (repeat_crcBit_injective 8 h)

theorem crcByte_injective_right (c : U16) : Function.Injective (crcByte c) := fun b b' h => by
  rw [← hi8_append_lo8 c, crcByte, crcByte, append_xor_setWidth, append_xor_setWidth] at h
  exact (BitVec.xor_right_inj _).mp ((BitVec.append_right_inj _).mp (repeat_crcBit_injective 8 h))

theorem foldl_crcByte_injective (s : List Byte) : Function.Injective (s.foldl crcByte) := by
  induction s with
  | nil => exact Function.injective_id
  | cons b s ih => exact ih.comp (crcByte_injective_left b)

theorem foldl_crcByte_set_ne {s : List Byte} {k : Nat} {b b' : Byte} (hk : s[k]? = some b) (hne : b' ≠ b) (c : U16) :
    (s.set k b').foldl crcByte c ≠ s.foldl crcByte c := by
  induction s generalizing k c with
  | nil => simp at hk
  | cons x xs ih =>
    cases k with
    | zero =>
      obtain rfl : x = b := by simpa using hk
      exact (foldl_crcByte_injective xs).ne ((crcByte_injective_right c).ne hne)
    | succ k => exact ih (by simpa using hk) (crcByte c x)

theorem xor_oneBit_ne (b : Byte) {bit : Nat} (hbit : bit < 8) : b ^^^ (1#8 <<< bit) ≠ b := by
  intro h
  have hflipped := congrArg (BitVec.getLsbD · bit) h
  simp [hbit] at hflipped

/-- Settles O8: `verify` compares the two bytes with those of the CRC of all others (R124). -/
theorem verifyAcceptsASequenceWithItsCrc : Obligations.VerifyAcceptsASequenceWithItsCrc := by
  intro s
  rw [verify_append, decide_eq_true ⟨rfl, rfl⟩]

/-- Settles O9: a changed byte changes the CRC, so one of its two bytes differs. -/
theorem verifyRejectsOneFlippedBit : Obligations.VerifyRejectsOneFlippedBit := by
  intro s k bit b hk hbit
  have hcrc : crc16 (s.set k (b ^^^ (1#8 <<< bit))) ≠ crc16 s := foldl_crcByte_set_ne hk (xor_oneBit_ne b hbit) _
  rw [verify_append, decide_eq_false]
  rintro ⟨hlo, hhi⟩
  exact hcrc (by rw [← hi8_append_lo8 (crc16 s), hhi, hlo, hi8_append_lo8])

end Sys2Proof.Machine
end

section
/-! The frame path of a tick: drop or answer (R126 to R132, R238). -/

namespace Sys2Proof.Machine

/-- Settles O12: the hypotheses say that the frame runs the instruction. -/
theorem stepRunsTheDecodedInstruction : Obligations.StepRunsTheDecodedInstruction :=
  fun _ _ _ _ henv harmed hlatched hvalid hdecoded => step_of_frameRuns henv ⟨harmed, hlatched, hvalid, hdecoded⟩

/-! ### The tick of a latched frame -/

theorem step_of_latched {s : State} {t : Timestamp} {rest : List EnvMove} (henv : s.env = .tick t :: rest)
    (harmed : s.phase = .rxArmed) (hlatched : s.rxDone = true) :
    step s = thenDo (watchdogUpdate t) (processFrame t (consumeRx { s with env := rest })) := by
  rw [step_tick_of_running henv (by simp [harmed]), tick, consumeEvent, if_neg (by simp [harmed]),
    if_pos ⟨harmed, hlatched⟩]

/-! ### Frames the validator refuses -/

theorem processFrame_of_refused {s : State} {r : DropReason} (hcheck : checkFrame s = some r) (t : Timestamp) :
    processFrame t s = .next (drop s) := by
  rw [processFrame, hcheck]

/-- Settles O15: `drop` is R130's. -/
theorem dropOnlyRearmsTheReceiver : Obligations.DropOnlyRearmsTheReceiver :=
  fun _ t _ hcheck => processFrame_of_refused hcheck t

/-- The validator passes exactly the frames that R127, R128 and R129 let through. -/
theorem checkFrame_eq_none_iff (s : State) :
    checkFrame s = none
      ↔ 4 ≤ s.rxLen ∧ s.rxLen ≤ 256 ∧ s.rxByte 0 = s.cfg.slaveAddr ∧ verify (rxFrame s) = some true := by
  rw [checkFrame, frameMin, frameMax]
  split
  case isTrue hlength => exact iff_of_false (Option.some_ne_none _) fun ⟨hmin, hmax, _⟩ => by omega
  case isFalse hlength =>
    obtain ⟨hmin, hmax⟩ : 4 ≤ s.rxLen ∧ s.rxLen ≤ 256 := by omega
    split
    case isTrue hforeign => exact iff_of_false (Option.some_ne_none _) fun ⟨_, _, h, _⟩ => hforeign h
    case isFalse haddr =>
      split
      case isTrue hcrc => exact iff_of_true rfl ⟨hmin, hmax, not_not.mp haddr, hcrc⟩
      case isFalse hcrc => exact iff_of_false (Option.some_ne_none _) fun ⟨_, _, _, h⟩ => hcrc h

theorem exists_checkFrame_eq_some {s : State} (hbad : s.rxLen < 4 ∨ 256 < s.rxLen ∨ s.rxByte 0 ≠ s.cfg.slaveAddr
    ∨ verify (rxFrame s) = some false) : ∃ r, checkFrame s = some r := by
  refine Option.ne_none_iff_exists'.mp fun hvalid => ?_
  obtain ⟨hmin, hmax, haddr, hcrc⟩ := (checkFrame_eq_none_iff s).mp hvalid
  rcases hbad with hshort | hlong | hforeign | hbadCrc
  · omega
  · omega
  · exact hforeign haddr
  · simp [hcrc] at hbadCrc

/-- Settles O14: each cause of the four makes the validator refuse, and a refused frame is dropped. -/
theorem badFramesAreDroppedSilently : Obligations.BadFramesAreDroppedSilently := by
  intro s t rest henv harmed hlatched hbad
  obtain ⟨r, hcheck⟩ := exists_checkFrame_eq_some hbad
  have hrefused : checkFrame (consumeRx { s with env := rest }) = some r := hcheck
  rw [step_of_latched henv harmed hlatched, processFrame_of_refused hrefused]
  rfl

/-! ### Frames the validator passes -/

/-- A validated frame is answered, an illegal code with its exception, and nothing outside the store and the response
path changes but the recorded poll time (R101, R131, R132, R216). -/
theorem processFrame_answers_of_valid {s : State} (hvalid : checkFrame s = none) (t : Timestamp) :
    ∃ v before pdu, processFrame t s = .next v ∧ Answered s v before pdu
      ∧ (before = [] ∨ ∃ a, before = [.hook a]) ∧ KeepsRest (recordPoll t s) v := by
  rcases processFrame_cases t s with
    ⟨r, hrefused, -⟩ | ⟨-, i, s', pdu, -, -, hframe, hserved, -⟩ | ⟨-, fc, -, hframe⟩
  · simp [hvalid] at hrefused
  · have hcfg : s'.cfg = s.cfg := hserved.cfg
    rcases hserved.trace with htrace | ⟨a, v, -, -, htrace⟩
    · exact ⟨_, [], pdu, hframe, answered_after hcfg (by simpa using htrace), .inl rfl, hserved.rest⟩
    · exact ⟨_, [.hook a.toNat], pdu, hframe, answered_after hcfg htrace, .inr ⟨_, rfl⟩, hserved.rest⟩
  · exact ⟨_, [], _, hframe, answered_sendResponse .., .inl rfl, keepsRest_sendResponse ..⟩

@[simp] theorem timedOut_self (t : Timestamp) : timedOut t t = false := by
  simp [timedOut]

/-- Settles O16: the handler keeps the recorded poll time, so the comparison after it finds no time elapsed (D21,
D22). -/
theorem validatedFrameIsAnsweredOnceAndFeedsTheWatchdog :
    Obligations.ValidatedFrameIsAnsweredOnceAndFeedsTheWatchdog := by
  intro s t rest henv harmed hlatched hvalid
  obtain ⟨v, before, pdu, hframe, hanswered, hbefore, hrest⟩ :=
    processFrame_answers_of_valid (s := consumeRx { s with env := rest }) hvalid t
  obtain ⟨-, -, -, hrxDone, -, -, hpoll, -, henvRest, -⟩ := hrest
  refine ⟨watchdogUpdate t v, before, pdu, ?_, hanswered, hbefore, hpoll, ?_, hrxDone, henvRest⟩
  · rw [step_of_latched henv harmed hlatched, hframe, thenDo_next]
  · rw [watchdogUpdate_timeoutFlag, hpoll, recordPoll_lastPoll, timedOut_self]

end Sys2Proof.Machine
end

section
/-! The read handlers (R150 to R154). -/

namespace Sys2Proof.Machine

/-! ### Answering without writing -/

/-- From s to t this PDU was sent, and the store and all else but the response path stand. -/
def OnlyAnswers (s t : State) (pdu : List Byte) : Prop :=
  Answered s t [] pdu ∧ KeepsRegisters s t ∧ KeepsCoils s t ∧ KeepsRest s t

theorem onlyAnswers_sendResponse (pdu : List Byte) (s : State) : OnlyAnswers s (sendResponse pdu s) pdu :=
  ⟨answered_sendResponse .., regRead_sendResponse s pdu, coilRead_sendResponse s pdu, keepsRest_sendResponse ..⟩

theorem onlyAnswers_raiseException (fc : Byte) (code : ExcCode) (s : State) :
    OnlyAnswers s (raiseException fc code s) [fc ||| 0x80#8, excByte code] :=
  onlyAnswers_sendResponse ..

/-! ### The data bytes -/

theorem getLsbD_of_getElem?_packCoils {coil : Nat → Bool} {n j lane : Nat} {b : Byte}
    (hb : (packCoils coil n)[j]? = some b) (hlane : lane < 8) :
    b.getLsbD lane = (decide (8 * j + lane < n) && coil (8 * j + lane)) := by
  obtain ⟨hj, rfl⟩ := List.getElem?_eq_some_iff.mp hb
  rw [getElem_packCoils, getLsbD_packCoilByte, decide_eq_true hlane, Bool.true_and]

theorem getElem?_registerBytes_map_range (f : Nat → U16) {n k : Nat} (hk : k < n) :
    (registerBytes ((List.range n).map f))[2 * k]? = some (hi8 (f k))
      ∧ (registerBytes ((List.range n).map f))[2 * k + 1]? = some (lo8 (f k)) := by
  obtain ⟨hhi, hlo⟩ := getElem?_registerBytes ((List.range n).map f) k
  rw [hhi, hlo]
  simp [hk]

/-! ### The handlers, by what their checks find -/

/-- Where the range code is ILLEGAL_DATA_VALUE too, every failing check raises it (R150). -/
theorem rangeError_illegalDataValue {max cap : Nat} {start count : U16}
    (hbad : ¬(1 ≤ count.toNat ∧ count.toNat ≤ max ∧ start.toNat + count.toNat ≤ cap)) :
    rangeError max cap .illegalDataValue start count = some .illegalDataValue := by
  obtain ⟨code, hcode⟩ := Option.ne_none_iff_exists'.mp (mt (rangeError_eq_none ..).mp hbad)
  obtain rfl : code = .illegalDataValue := (rangeError_eq_some _ _ _ _ _ _ hcode).elim id id
  exact hcode

section
variable {start count : U16} {s : State} (fc : Byte)

theorem readCoilRange_of_rangeError {code : ExcCode}
    (h : rangeError maxCoil s.cfg.nCoil .illegalDataValue start count = some code) :
    readCoilRange fc start count s = raiseException fc code s := by
  rw [readCoilRange, h]

theorem readRegisterRange_of_rangeError {code : ExcCode}
    (h : rangeError maxReg s.cfg.nReg .illegalDataAddress start count = some code) :
    readRegisterRange fc start count s = raiseException fc code s := by
  rw [readRegisterRange, h]

/-- R150 and R154 for a range that passes both checks. -/
theorem readCoilRange_answers_packed (hmin : 1 ≤ count.toNat) (hmax : count.toNat ≤ 44)
    (hrange : start.toNat + count.toNat ≤ s.cfg.nCoil) :
    ∃ data, OnlyAnswers s (readCoilRange fc start count s) (fc :: BitVec.ofNat 8 data.length :: data)
      ∧ data.length = (count.toNat + 7) / 8
      ∧ ∀ j b lane, data[j]? = some b → lane < 8 →
          b.getLsbD lane = (decide (8 * j + lane < count.toNat) && s.coilRead (start.toNat + (8 * j + lane))) := by
  refine ⟨packCoils (fun k => s.coilRead (start.toNat + k)) count.toNat, ?_, length_packCoils ..,
    fun j b lane hb hlane => getLsbD_of_getElem?_packCoils hb hlane⟩
  rw [readCoilRange, (rangeError_eq_none ..).mpr ⟨hmin, hmax, hrange⟩, length_packCoils]
  exact onlyAnswers_sendResponse ..

/-- R152 for a range that passes both checks. -/
theorem readRegisterRange_answers_bigEndian (hmin : 1 ≤ count.toNat) (hmax : count.toNat ≤ 33)
    (hrange : start.toNat + count.toNat ≤ s.cfg.nReg) :
    ∃ data, OnlyAnswers s (readRegisterRange fc start count s) (fc :: BitVec.ofNat 8 data.length :: data)
      ∧ data.length = 2 * count.toNat
      ∧ ∀ k, k < count.toNat → data[2 * k]? = some (hi8 (s.regRead (start.toNat + k)))
          ∧ data[2 * k + 1]? = some (lo8 (s.regRead (start.toNat + k))) := by
  have hlength : (registerBytes ((List.range count.toNat).map fun k => s.regRead (start.toNat + k))).length
      = 2 * count.toNat := by simp
  refine ⟨_, ?_, hlength, fun k hk => getElem?_registerBytes_map_range _ hk⟩
  rw [readRegisterRange, (rangeError_eq_none ..).mpr ⟨hmin, hmax, hrange⟩, hlength]
  exact onlyAnswers_sendResponse ..

theorem readCoilRange_refuses
    (hbad : ¬(1 ≤ count.toNat ∧ count.toNat ≤ 44 ∧ start.toNat + count.toNat ≤ s.cfg.nCoil)) :
    OnlyAnswers s (readCoilRange fc start count s) [fc ||| 0x80#8, 0x03#8] := by
  rw [readCoilRange_of_rangeError fc (rangeError_illegalDataValue hbad)]
  exact onlyAnswers_raiseException ..

theorem readRegisterRange_refuses_count (hbad : ¬(1 ≤ count.toNat ∧ count.toNat ≤ 33)) :
    OnlyAnswers s (readRegisterRange fc start count s) [fc ||| 0x80#8, 0x03#8] := by
  rw [readRegisterRange_of_rangeError fc (rangeError_of_count _ _ _ _ _ hbad)]
  exact onlyAnswers_raiseException ..

theorem readRegisterRange_refuses_range (hmin : 1 ≤ count.toNat) (hmax : count.toNat ≤ 33)
    (hbeyond : s.cfg.nReg < start.toNat + count.toNat) :
    OnlyAnswers s (readRegisterRange fc start count s) [fc ||| 0x80#8, 0x02#8] := by
  rw [readRegisterRange_of_rangeError fc (rangeError_of_range _ _ _ _ _ hmin hmax hbeyond)]
  exact onlyAnswers_raiseException ..

end

/-! ### The four function codes -/

section
variable {start count : U16} {i : Instr} {fc : Byte}

/-- FC 0x01 and 0x02 run one handler, each with its own function byte (R151, D12). -/
theorem exec_eq_readCoilRange (s : State)
    (hi : (i = .readCoils start count ∧ fc = 0x01#8) ∨ (i = .readDiscreteInputs start count ∧ fc = 0x02#8)) :
    exec i s = .next (readCoilRange fc start count s) := by
  rcases hi with ⟨rfl, rfl⟩ | ⟨rfl, rfl⟩ <;> rfl

/-- FC 0x03 and 0x04 run one handler, each with its own function byte (R153, D12). -/
theorem exec_eq_readRegisterRange (s : State)
    (hi : (i = .readHoldingRegisters start count ∧ fc = 0x03#8)
      ∨ (i = .readInputRegisters start count ∧ fc = 0x04#8)) :
    exec i s = .next (readRegisterRange fc start count s) := by
  rcases hi with ⟨rfl, rfl⟩ | ⟨rfl, rfl⟩ <;> rfl

end

/-- Settles O18: both checks pass, and the data is `packCoils` of the range. -/
theorem readCoilsAnswersThePackedRange : Obligations.ReadCoilsAnswersThePackedRange := by
  intro s start count i fc hi hmin hmax hrange
  obtain ⟨data, ⟨hanswered, hregs, hcoils, hrest⟩, hlength, hbits⟩ :=
    readCoilRange_answers_packed fc hmin hmax hrange
  exact ⟨_, data, exec_eq_readCoilRange s hi, hanswered, hlength, hbits, hregs, hcoils, hrest⟩

/-- Settles O19: a failing check of either kind raises ILLEGAL_DATA_VALUE. -/
theorem readCoilsRefusesOtherRanges : Obligations.ReadCoilsRefusesOtherRanges := by
  intro s start count i fc hi hbad
  rcases hi with ⟨rfl, rfl⟩ | ⟨rfl, rfl⟩
  all_goals exact ⟨_, rfl, readCoilRange_refuses _ hbad⟩

/-- Settles O20: both checks pass, and the data is `registerBytes` of the range. -/
theorem readRegistersAnswersTheRange : Obligations.ReadRegistersAnswersTheRange := by
  intro s start count i fc hi hmin hmax hrange
  obtain ⟨data, ⟨hanswered, hregs, hcoils, hrest⟩, hlength, hbytes⟩ :=
    readRegisterRange_answers_bigEndian fc hmin hmax hrange
  exact ⟨_, data, exec_eq_readRegisterRange s hi, hanswered, hlength, hbytes, hregs, hcoils, hrest⟩

/-- Settles O21: the count check comes before the range check (D9), each with its own code. -/
theorem readRegistersRefusesOtherRanges : Obligations.ReadRegistersRefusesOtherRanges := by
  intro s start count i fc hi
  rcases hi with ⟨rfl, rfl⟩ | ⟨rfl, rfl⟩
  all_goals exact ⟨fun hbad => ⟨_, rfl, readRegisterRange_refuses_count _ hbad⟩,
    fun hmin hmax hbeyond => ⟨_, rfl, readRegisterRange_refuses_range _ hmin hmax hbeyond⟩⟩

end Sys2Proof.Machine
end

section
/-! The write-single handlers (R170 to R172): what each does with a slot that fails its checks and with one that
passes, and when the hook fires. -/

namespace Sys2Proof.Machine

@[simp] theorem keepsRest_sendResponse_iff (s t : State) (pdu : List Byte) :
    KeepsRest s (sendResponse pdu t) ↔ KeepsRest s t := Iff.rfl

theorem KeepsRest.cfg {s t : State} (h : KeepsRest s t) : t.cfg = s.cfg := by
  obtain ⟨hcfg, -⟩ := h
  exact hcfg

/-! ### The store effect of FC 0x05 -/

theorem coilPattern_eq_none {value4 value5 : Byte} (hset : ¬(value4 = 0xFF#8 ∧ value5 = 0x00#8))
    (hclear : ¬(value4 = 0x00#8 ∧ value5 = 0x00#8)) : coilPattern value4 value5 = none := by
  rw [coilPattern, if_neg hset, if_neg hclear]

section
variable (a : Nat) (value4 value5 : Byte) (s : State)

/-- The pair decides its own coil alone, and a pair that is no pattern leaves that one too (R97, R170). -/
theorem coilRead_applyCoilPattern (b : Nat) :
    (applyCoilPattern a value4 value5 s).coilRead b
      = if b = a then (coilPattern value4 value5).getD (s.coilRead a) else s.coilRead b := by
  unfold applyCoilPattern
  cases coilPattern value4 value5 with
  | some bit => exact coilRead_coilWrite ..
  | none =>
    by_cases hb : b = a
    · subst hb
      exact (if_pos rfl).symm
    · exact (if_neg hb).symm

theorem regRead_applyCoilPattern (b : Nat) : (applyCoilPattern a value4 value5 s).regRead b = s.regRead b := by
  rw [State.regRead, applyCoilPattern_reg, State.regRead]

theorem keepsRest_applyCoilPattern : KeepsRest s (applyCoilPattern a value4 value5 s) := by
  unfold applyCoilPattern
  split
  · simp [KeepsRest]
  · exact keepsRest_refl s

theorem applyCoilPattern_trace : (applyCoilPattern a value4 value5 s).trace = s.trace := by
  unfold applyCoilPattern
  split <;> rfl

/-! ### The hook of FC 0x06 -/

theorem regRead_flowHook (b : Nat) : (flowHook a s).regRead b = s.regRead b := by
  unfold flowHook
  split <;> rfl

theorem coilRead_flowHook (b : Nat) : (flowHook a s).coilRead b = s.coilRead b := by
  rw [State.coilRead, flowHook_coil, State.coilRead]

theorem keepsRest_flowHook : KeepsRest s (flowHook a s) := by
  unfold flowHook
  split
  · simp [KeepsRest]
  · exact keepsRest_refl s

theorem flowHook_trace :
    (flowHook a s).trace = s.trace ++ if s.cfg.flowRegId = some a then [.hook a] else [] := by
  unfold flowHook
  split
  · rfl
  · exact (List.append_nil _).symm

end

/-! ### The handlers, by what the slot check finds -/

section
variable {s : State} {address : U16}

theorem exec_writeSingleCoil_of_bad (value4 value5 : Byte)
    (hbad : s.cfg.nCoil ≤ address.toNat ∨ s.cfg.coilReadOnly address.toNat = true) :
    exec (.writeSingleCoil address value4 value5) s = .next (raiseException 0x05#8 .illegalDataAddress s) := by
  rw [exec, execWriteSingleCoil, slotError_of_bad _ _ _ hbad]

theorem exec_writeSingleCoil_of_writable (value4 value5 : Byte) (hbacked : address.toNat < s.cfg.nCoil)
    (hwritable : s.cfg.coilReadOnly address.toNat = false) :
    exec (.writeSingleCoil address value4 value5) s
      = .next (sendResponse [0x05#8, hi8 address, lo8 address, value4, value5]
          (applyCoilPattern address.toNat value4 value5 s)) := by
  rw [exec, execWriteSingleCoil, (slotError_eq_none ..).mpr ⟨hbacked, hwritable⟩]

theorem exec_writeSingleRegister_of_bad (value : U16)
    (hbad : s.cfg.nReg ≤ address.toNat ∨ s.cfg.regReadOnly address.toNat = true) :
    exec (.writeSingleRegister address value) s = .next (raiseException 0x06#8 .illegalDataAddress s) := by
  rw [exec, execWriteSingleRegister, slotError_of_bad _ _ _ hbad]

theorem exec_writeSingleRegister_of_writable (value : U16) (hbacked : address.toNat < s.cfg.nReg)
    (hwritable : s.cfg.regReadOnly address.toNat = false) :
    exec (.writeSingleRegister address value) s
      = .next (sendResponse [0x06#8, hi8 address, lo8 address, hi8 value, lo8 value]
          (flowHook address.toNat (s.regWrite address.toNat value))) := by
  rw [exec, execWriteSingleRegister, (slotError_eq_none ..).mpr ⟨hbacked, hwritable⟩]

end

/-! ### The two codes, whole -/

theorem decode_of_code_writeSingleCoil {rd : Nat → Byte} (hcode : rd 1 = 0x05#8) :
    decode rd = .instr (.writeSingleCoil (be16 rd 2) (rd 4) (rd 5)) := by
  simp [decode, hcode]

theorem decode_of_code_writeSingleRegister {rd : Nat → Byte} (hcode : rd 1 = 0x06#8) :
    decode rd = .instr (.writeSingleRegister (be16 rd 2) (be16 rd 4)) := by
  simp [decode, hcode]

/-- Settles O22: a bad slot raises the exception and nothing else; a good one takes the pair's effect, which
`coilRead_applyCoilPattern` gives coil by coil, and then the echo is sent. -/
theorem writeSingleCoilFollowsItsRule : Obligations.WriteSingleCoilFollowsItsRule := by
  refine ⟨fun rd hcode => ⟨_, decode_of_code_writeSingleCoil hcode, hi8_be16 .., lo8_be16 ..⟩,
    fun s a v4 v5 => ⟨fun hbad => ?_, fun hbacked hwritable => ?_⟩⟩
  · exact ⟨_, exec_writeSingleCoil_of_bad v4 v5 hbad, onlyAnswers_raiseException ..⟩
  · have hrest := keepsRest_applyCoilPattern a.toNat v4 v5 s
    refine ⟨_, exec_writeSingleCoil_of_writable v4 v5 hbacked hwritable,
      answered_after hrest.cfg (by rw [applyCoilPattern_trace, List.append_nil]), ?_⟩
    simp only [coilRead_sendResponse, coilRead_applyCoilPattern, if_true]
    refine ⟨?set, ?clear, ?leave, fun b hb => if_neg hb, fun b => ?registers,
      (keepsRest_sendResponse_iff ..).mpr hrest⟩
    case set =>
      rintro rfl rfl
      rfl
    case clear =>
      rintro rfl rfl
      rfl
    case leave =>
      intro hset hclear
      rw [coilPattern_eq_none hset hclear, Option.getD_none]
    case registers => rw [regRead_sendResponse, regRead_applyCoilPattern]

/-- Settles O23: a bad slot raises the exception before the store and the hook; a good one is stored, the hook event
comes next where the register is the flow register, and then the echo is sent. -/
theorem writeSingleRegisterFollowsItsRule : Obligations.WriteSingleRegisterFollowsItsRule := by
  refine ⟨fun rd hcode => ⟨_, _, decode_of_code_writeSingleRegister hcode, hi8_be16 .., lo8_be16 .., hi8_be16 ..,
    lo8_be16 ..⟩, fun s a v => ⟨fun hbad => ?_, fun hbacked hwritable => ?_⟩⟩
  · exact ⟨_, exec_writeSingleRegister_of_bad v hbad, onlyAnswers_raiseException ..⟩
  · have hrest : KeepsRest s (flowHook a.toNat (s.regWrite a.toNat v)) :=
      keepsRest_flowHook a.toNat (s.regWrite a.toNat v)
    have htrace := flowHook_trace a.toNat (s.regWrite a.toNat v)
    refine ⟨_, exec_writeSingleRegister_of_writable v hbacked hwritable, answered_after hrest.cfg htrace, ?stored,
      fun b hb => ?others, fun b => ?coils, (keepsRest_sendResponse_iff ..).mpr hrest⟩
    case stored => rw [regRead_sendResponse, regRead_flowHook, regRead_regWrite, if_pos rfl]
    case others => rw [regRead_sendResponse, regRead_flowHook, regRead_regWrite, if_neg hb]
    case coils => rw [coilRead_sendResponse, coilRead_flowHook, coilRead_regWrite]

/-! ### Which steps add a hook event -/

section
variable (a : Nat) (s : State)

theorem count_hook_sendResponse (pdu : List Byte) :
    (sendResponse pdu s).trace.count (.hook a) = s.trace.count (.hook a) := by
  simp

theorem count_hook_finishResponse : (finishResponse s).trace.count (.hook a) = s.trace.count (.hook a) := by
  simp

theorem count_hook_drop : (drop s).trace.count (.hook a) = s.trace.count (.hook a) := by
  simp

theorem hostCall_trace (call : HostCall) : (hostCall call s).trace = s.trace := by
  rcases hostCall_cases call s with ⟨op, id, hcall⟩ | ⟨v, hcall⟩ | ⟨id, b, -, hcall⟩ | ⟨id, v, -, -, hcall⟩
  · rw [hcall, fatal_trace]
  · rw [hcall, giveBack_trace]
  · rw [hcall, coilWrite_trace]
  · rw [hcall, regWrite_trace]

end

/-- FC 0x06 to register a, which is the flow register, backed and writable (R171, R172). -/
def WritesFlowRegister (cfg : Config) (a : Nat) (i : Instr) : Prop :=
  ∃ address value, i = .writeSingleRegister address value ∧ address.toNat = a ∧ cfg.flowRegId = some a
    ∧ a < cfg.nReg ∧ cfg.regReadOnly a = false

/-- `exec_served` names the instruction that may call the hook; were its slot bad, it would have raised the exception
and called nothing. -/
theorem exec_hook_fires {i : Instr} {s t : State} {a : Nat} (hexec : exec i s = .next t)
    (hmore : s.trace.count (.hook a) < t.trace.count (.hook a)) : WritesFlowRegister s.cfg a i := by
  obtain ⟨s', pdu, hanswer, hserved, -⟩ := exec_served i s
  have ht : t = sendResponse pdu s' := by simpa [hexec] using hanswer
  have hmore' : s.trace.count (.hook a) < s'.trace.count (.hook a) := by
    rwa [ht, count_hook_sendResponse] at hmore
  rcases hserved.trace with htrace | ⟨address, value, rfl, hflow, htrace⟩
  · exact absurd hmore' (by simp [htrace])
  · obtain rfl : address.toNat = a := by
      by_contra hne
      exact absurd hmore' (by simp [htrace, hne])
    have hgood : ¬(s.cfg.nReg ≤ address.toNat ∨ s.cfg.regReadOnly address.toNat = true) := fun hbad => by
      rw [exec_writeSingleRegister_of_bad value hbad] at hexec
      cases hexec
      exact absurd hmore (count_hook_sendResponse ..).le.not_gt
    obtain ⟨hbacked, hwritable⟩ := not_or.mp hgood
    exact ⟨address, value, rfl, rfl, hflow, Nat.lt_of_not_le hbacked, eq_false_of_ne_true hwritable⟩

theorem tick_hook_fires {t : Timestamp} {s u : State} {a : Nat} (htick : tick t s = .next u)
    (hmore : s.trace.count (.hook a) < u.trace.count (.hook a)) :
    ∃ i, FrameRuns s i ∧ WritesFlowRegister s.cfg a i := by
  rcases tick_next htick with
    ⟨-, -, rfl⟩ | ⟨-, -, r, -, rfl⟩ | ⟨harmed, hlatched, hvalid, i, s', pdu, hdecoded, hexec, -, -, -, rfl⟩
      | ⟨-, -, -, fc, -, rfl⟩ | ⟨-, -, rfl⟩
  · exact absurd hmore (count_hook_finishResponse a s).le.not_gt
  · exact absurd hmore (count_hook_drop a (consumeRx s)).le.not_gt
  · exact ⟨i, ⟨harmed, hlatched, hvalid, hdecoded⟩, exec_hook_fires (s := recordPoll t (consumeRx s)) hexec hmore⟩
  · exact absurd hmore (count_hook_sendResponse a (recordPoll t (consumeRx s)) _).le.not_gt
  · exact absurd hmore (lt_irrefl _)

/-- Settles O24: no move but a tick adds a hook event, a new init beginning its trace anew, and of the tick's branches
only a served instruction does. -/
theorem hookFiresOnlyForWriteSingleRegister : Obligations.HookFiresOnlyForWriteSingleRegister := by
  intro s u a hstep hmore
  rcases step_cases hstep with ⟨-, -, rfl⟩ | ⟨t0, rest, -, rfl⟩ | ⟨-, e, rest, henv, hmove⟩
  · exact absurd hmore (lt_irrefl _)
  · exact absurd hmore (Nat.not_lt_zero _)
  · rcases hmove with ⟨t, rfl, htick⟩ | ⟨bytes, -, -, -, rfl⟩ | ⟨-, -, -, rfl⟩ | ⟨call, -, rfl⟩
    · obtain ⟨i, ⟨harmed, hlatched, hvalid, hdecoded⟩, address, value, rfl, ha, hflow, hbacked, hwritable⟩ :=
        tick_hook_fires htick hmore
      exact ⟨t, rest, address, value, henv, harmed, hlatched, hvalid, hdecoded, ha, hflow, hbacked, hwritable⟩
    · exact absurd hmore (lt_irrefl _)
    · exact absurd hmore (lt_irrefl _)
    · rw [hostCall_trace] at hmore
      exact absurd hmore (lt_irrefl _)

end Sys2Proof.Machine
end

section
/-! The write-multiple handlers (R190 to R194): the range up to its first read-only slot is written, and the reply says
whether that was all of it. -/

namespace Sys2Proof.Machine

/-! ### The end of the write loop -/

/-- The PDU of a write that got as far as slot n of its range: the echo (R193), or ILLEGAL_DATA_ADDRESS (R192). -/
def writeReply (fc : Byte) (start count : U16) (n : Nat) : List Byte :=
  if n = count.toNat then [fc, hi8 start, lo8 start, hi8 count, lo8 count]
  else [fc ||| 0x80#8, excByte .illegalDataAddress]

theorem endWriteLoop_eq_writeReply (fc : Byte) (start count : U16) (n : Nat) (s : State) :
    endWriteLoop fc start count (decide (n = count.toNat)) s = sendResponse (writeReply fc start count n) s := by
  simp only [endWriteLoop_eq, writeReply, decide_eq_true_eq]

theorem writeReply_whole (fc : Byte) (start count : U16) :
    writeReply fc start count count.toNat = [fc, hi8 start, lo8 start, hi8 count, lo8 count] :=
  if_pos rfl

theorem writeReply_of_lt (fc : Byte) (start : U16) {count : U16} {n : Nat} (h : n < count.toNat) :
    writeReply fc start count n = [fc ||| 0x80#8, 0x02#8] :=
  if_neg h.ne

section
variable {s : State} {start count : U16} (byteCount : Byte)

/-! ### A range that fails its checks -/

theorem exists_rangeError_eq_some {max cap : Nat} (c : ExcCode)
    (hbad : ¬(1 ≤ count.toNat ∧ count.toNat ≤ max ∧ start.toNat + count.toNat ≤ cap)) :
    ∃ code, rangeError max cap c start count = some code :=
  Option.ne_none_iff_exists'.mp (mt (rangeError_eq_none ..).mp hbad)

theorem exec_writeMultipleCoils_of_rangeError {code : ExcCode} (data : List Byte)
    (h : rangeError maxCoil s.cfg.nCoil .illegalDataAddress start count = some code) :
    exec (.writeMultipleCoils start count byteCount data) s = .next (raiseException 0x0F#8 code s) := by
  rw [exec, execWriteMultipleCoils, h]

theorem exec_writeMultipleRegisters_of_rangeError {code : ExcCode} (values : List U16)
    (h : rangeError maxReg s.cfg.nReg .illegalDataAddress start count = some code) :
    exec (.writeMultipleRegisters start count byteCount values) s = .next (raiseException 0x10#8 code s) := by
  rw [exec, execWriteMultipleRegisters, h]

/-! ### A range that passes them -/

section
variable {n : Nat} {data : List Byte} {values : List U16}

theorem exec_writeMultipleCoils_of_backed
    (hbacked : rangeError maxCoil s.cfg.nCoil .illegalDataAddress start count = none)
    (hdata : count.toNat ≤ 8 * data.length) (hn : writableCount s.cfg.coilReadOnly start.toNat count.toNat = n) :
    exec (.writeMultipleCoils start count byteCount data) s
      = .next (sendResponse (writeReply 0x0F#8 start count n)
          { s with coil := memWriteList false s.coil start.toNat ((unpackCoils data count.toNat).take n) }) := by
  rw [exec, execWriteMultipleCoils, hbacked, ← endWriteLoop_eq_writeReply]
  simp only [writeCoilRange_eq, length_unpackCoils _ _ hdata, hn]

theorem exec_writeMultipleRegisters_of_backed
    (hbacked : rangeError maxReg s.cfg.nReg .illegalDataAddress start count = none)
    (hvalues : values.length = count.toNat) (hn : writableCount s.cfg.regReadOnly start.toNat count.toNat = n) :
    exec (.writeMultipleRegisters start count byteCount values) s
      = .next (sendResponse (writeReply 0x10#8 start count n)
          { s with reg := memWriteList 0#16 s.reg start.toNat (values.take n) }) := by
  rw [exec, execWriteMultipleRegisters, hbacked, ← endWriteLoop_eq_writeReply]
  simp only [writeRegisterRange_eq, List.take_of_length_le hvalues.le, hvalues, hn]

/-- R190 and R192 in one: the coils before slot n of the range take their bits, and nothing else changes. -/
theorem writeMultipleCoils_writes
    (hlength : data.length = (count.toNat + 7) / 8) (hmin : 1 ≤ count.toNat) (hmax : count.toNat ≤ 44)
    (hrange : start.toNat + count.toNat ≤ s.cfg.nCoil)
    (hn : writableCount s.cfg.coilReadOnly start.toNat count.toNat = n) :
    ∃ t, exec (.writeMultipleCoils start count byteCount data) s = .next t
      ∧ Answered s t [] (writeReply 0x0F#8 start count n)
      ∧ (∀ k b, k < n → data[k / 8]? = some b → t.coilRead (start.toNat + k) = b.getLsbD (k % 8))
      ∧ (∀ a, a < start.toNat ∨ start.toNat + n ≤ a → t.coilRead a = s.coilRead a)
      ∧ KeepsRegisters s t ∧ KeepsRest s t := by
  have hdata : count.toNat ≤ 8 * data.length := by omega
  have hle : n ≤ count.toNat := hn ▸ writableCount_le ..
  obtain ⟨hwritten, hothers⟩ := memWriteList_take false s.coil start.toNat n (unpackCoils data count.toNat)
  rw [length_unpackCoils _ _ hdata] at hothers
  refine ⟨_, exec_writeMultipleCoils_of_backed byteCount ((rangeError_eq_none ..).mpr ⟨hmin, hmax, hrange⟩) hdata hn,
    answered_after rfl (List.append_nil _).symm, fun k b hk hb => hwritten k _ hk ?_, hothers hle, fun _ => rfl,
    keepsRest_refl s⟩
  rw [getElem?_unpackCoils, if_pos (hk.trans_le hle), hb, Option.map_some]

/-- R191 and R192 in one: the registers before slot n of the range take their values, and nothing else changes. -/
theorem writeMultipleRegisters_writes
    (hlength : values.length = count.toNat) (hmin : 1 ≤ count.toNat) (hmax : count.toNat ≤ 33)
    (hrange : start.toNat + count.toNat ≤ s.cfg.nReg)
    (hn : writableCount s.cfg.regReadOnly start.toNat count.toNat = n) :
    ∃ t, exec (.writeMultipleRegisters start count byteCount values) s = .next t
      ∧ Answered s t [] (writeReply 0x10#8 start count n)
      ∧ (∀ k v, k < n → values[k]? = some v → t.regRead (start.toNat + k) = v)
      ∧ (∀ a, a < start.toNat ∨ start.toNat + n ≤ a → t.regRead a = s.regRead a)
      ∧ KeepsCoils s t ∧ KeepsRest s t := by
  have hle : n ≤ values.length := hlength ▸ hn ▸ writableCount_le ..
  obtain ⟨hwritten, hothers⟩ := memWriteList_take 0#16 s.reg start.toNat n values
  exact ⟨_, exec_writeMultipleRegisters_of_backed byteCount ((rangeError_eq_none ..).mpr ⟨hmin, hmax, hrange⟩) hlength
    hn, answered_after rfl (List.append_nil _).symm, hwritten, hothers hle, fun _ => rfl, keepsRest_refl s⟩

end

end

/-! ### The two codes -/

/-- Settles O25: with no read-only coil in it the loop writes the whole range. -/
theorem writeMultipleCoilsWritesTheRange : Obligations.WriteMultipleCoilsWritesTheRange := by
  intro s start count bc data hlength hmin hmax hrange hwritable
  rw [← writeReply_whole]
  exact writeMultipleCoils_writes bc hlength hmin hmax hrange (writableCount_eq_of_writable _ _ _ hwritable)

/-- Settles O26: with no read-only register in it the loop writes the whole range. -/
theorem writeMultipleRegistersWritesTheRange : Obligations.WriteMultipleRegistersWritesTheRange := by
  intro s start count bc values hlength hmin hmax hrange hwritable
  obtain ⟨t, hexec, hanswered, hwritten, hkept⟩ :=
    writeMultipleRegisters_writes bc hlength hmin hmax hrange (writableCount_eq_of_writable _ _ _ hwritable)
  rw [writeReply_whole] at hanswered
  refine ⟨t, hexec, hanswered, fun k v hv => ?_, hkept⟩
  obtain ⟨hk, -⟩ := List.getElem?_eq_some_iff.mp hv
  exact hwritten k v (hlength ▸ hk) hv

/-- Settles O27: the loop stops at the first read-only slot, and a range that fails its checks does not begin it. -/
theorem abortedWriteKeepsTheSlotsBeforeIt : Obligations.AbortedWriteKeepsTheSlotsBeforeIt := by
  refine ⟨?coils, ?registers, ?refusedCoils, ?refusedRegisters⟩
  case coils =>
    intro s start count bc data j hlength hmax hrange hj hwritable hreadOnly
    have hstop := writableCount_of_first s.cfg.coilReadOnly start.toNat count.toNat j hj hwritable hreadOnly
    have hreply : writeReply 0x0F#8 start count j = [0x8F#8, 0x02#8] := writeReply_of_lt _ _ hj
    rw [← hreply]
    exact writeMultipleCoils_writes bc hlength (by omega) hmax hrange hstop
  case registers =>
    intro s start count bc values j hlength hmax hrange hj hwritable hreadOnly
    have hstop := writableCount_of_first s.cfg.regReadOnly start.toNat count.toNat j hj hwritable hreadOnly
    have hreply : writeReply 0x10#8 start count j = [0x90#8, 0x02#8] := writeReply_of_lt _ _ hj
    rw [← hreply]
    exact writeMultipleRegisters_writes bc hlength (by omega) hmax hrange hstop
  case refusedCoils =>
    intro s start count bc data hbad
    obtain ⟨code, hcode⟩ := exists_rangeError_eq_some .illegalDataAddress hbad
    exact ⟨_, exec_writeMultipleCoils_of_rangeError bc data hcode, regRead_raiseException s _ _,
      coilRead_raiseException s _ _⟩
  case refusedRegisters =>
    intro s start count bc values hbad
    obtain ⟨code, hcode⟩ := exists_rangeError_eq_some .illegalDataAddress hbad
    exact ⟨_, exec_writeMultipleRegisters_of_rangeError bc values hcode, regRead_raiseException s _ _,
      coilRead_raiseException s _ _⟩

/-- Settles O28: the count check comes before the range check (D9), each with its own code. -/
theorem writeMultipleRefusesOtherRanges : Obligations.WriteMultipleRefusesOtherRanges := by
  intro s start count bc
  have hraised (fc : Byte) (code : ExcCode) : Answered s (raiseException fc code s) [] [fc ||| 0x80#8, excByte code]
      ∧ KeepsRest s (raiseException fc code s) := ⟨answered_sendResponse .., keepsRest_sendResponse ..⟩
  exact ⟨
    fun data hbad =>
      ⟨_, exec_writeMultipleCoils_of_rangeError bc data (rangeError_of_count _ _ _ _ _ hbad), hraised ..⟩,
    fun data hmin hmax hbeyond =>
      ⟨_, exec_writeMultipleCoils_of_rangeError bc data (rangeError_of_range _ _ _ _ _ hmin hmax hbeyond), hraised ..⟩,
    fun values hbad =>
      ⟨_, exec_writeMultipleRegisters_of_rangeError bc values (rangeError_of_count _ _ _ _ _ hbad), hraised ..⟩,
    fun values hmin hmax hbeyond =>
      ⟨_, exec_writeMultipleRegisters_of_rangeError bc values (rangeError_of_range _ _ _ _ _ hmin hmax hbeyond),
        hraised ..⟩⟩

/-! ### The echo of the request (R193) -/

theorem dispatch_of_code_writeMultipleCoils {s : State} (hcode : s.rxByte 1 = 0x0F#8) :
    dispatch s = exec (.writeMultipleCoils (be16 s.rxByte 2) (be16 s.rxByte 4) (s.rxByte 6)
      (coilData s.rxByte (be16 s.rxByte 4))) s := by
  simp [dispatch, decode, hcode]

theorem dispatch_of_code_writeMultipleRegisters {s : State} (hcode : s.rxByte 1 = 0x10#8) :
    dispatch s = exec (.writeMultipleRegisters (be16 s.rxByte 2) (be16 s.rxByte 4) (s.rxByte 6)
      (registerData s.rxByte (be16 s.rxByte 4))) s := by
  simp [dispatch, decode, hcode]

/-- The echoed fields are the request's own bytes 2 to 5. -/
theorem writeReply_be16 (fc : Byte) (rd : Nat → Byte) :
    writeReply fc (be16 rd 2) (be16 rd 4) (be16 rd 4).toNat = [fc, rd 2, rd 3, rd 4, rd 5] := by
  rw [writeReply_whole, hi8_be16, lo8_be16, hi8_be16, lo8_be16]

/-- Settles O29: the decoded request carries the DATA its count asks for, so the loop writes the whole range. -/
theorem writeMultipleEchoesTheRequestBytes : Obligations.WriteMultipleEchoesTheRequestBytes := by
  refine fun s => ⟨fun hcode hmin hmax hrange hwritable => ?coils, fun hcode hmin hmax hrange hwritable => ?registers⟩
  case coils =>
    obtain ⟨t, hexec, hanswered, -⟩ := writeMultipleCoils_writes (s.rxByte 6) (length_coilData s.rxByte _ hmax) hmin hmax
      hrange (writableCount_eq_of_writable _ _ _ hwritable)
    rw [writeReply_be16] at hanswered
    exact ⟨t, (dispatch_of_code_writeMultipleCoils hcode).trans hexec, hcode ▸ hanswered⟩
  case registers =>
    obtain ⟨t, hexec, hanswered, -⟩ := writeMultipleRegisters_writes (s.rxByte 6)
      (length_registerData s.rxByte _ hmax) hmin hmax hrange (writableCount_eq_of_writable _ _ _ hwritable)
    rw [writeReply_be16] at hanswered
    exact ⟨t, (dispatch_of_code_writeMultipleRegisters hcode).trans hexec, hcode ▸ hanswered⟩

/-! ### Reading back what was written (R194) -/

/-- Settles O30: lane `lane` of byte j is coil `8j + lane` of the range for both handlers, and FC 0x01 clears the lanes
past the count. -/
theorem coilsWrittenAreReadBack : Obligations.CoilsWrittenAreReadBack := by
  intro s start count bc data hlength hmin hmax hrange hwritable
  obtain ⟨t, hexec, -, hwritten, -⟩ :=
    writeMultipleCoils_writes bc hlength hmin hmax hrange (writableCount_eq_of_writable _ _ _ hwritable)
  refine ⟨t, hexec, fun r hcfg hcoils => ?_⟩
  obtain ⟨out, ⟨hanswered, -⟩, hout, hread⟩ :=
    readCoilRange_answers_packed (s := r) 0x01#8 hmin hmax (hcfg ▸ hrange)
  refine ⟨_, out, exec_eq_readCoilRange r (.inl ⟨rfl, rfl⟩), hanswered, hout.trans hlength.symm,
    fun j b c lane hb hc hlane => ?_⟩
  rw [hread j b lane hb hlane]
  by_cases hlt : 8 * j + lane < count.toNat
  · have hbyte : (8 * j + lane) / 8 = j := by omega
    have hbit : (8 * j + lane) % 8 = lane := by omega
    rw [hcoils, hwritten _ c hlt (by rwa [hbyte]), hbit]
  · simp [hlt]

end Sys2Proof.Machine
end

section
/-! The response transmitter: the one answer of each instruction, and its completion by a tick (R211, R213, R214). -/

namespace Sys2Proof.Machine

/-- Where a handler has done no more than `Served` says, the response it sends stands as answered to the state before
the handler, and what precedes it is at most FC 0x06's hook (R172, R213). -/
theorem Served.answered {i : Instr} {s s' : State} (hserved : Served i s s') (pdu : List Byte) :
    ∃ before, Answered s (sendResponse pdu s') before pdu ∧ (before = [] ∨ ∃ a, before = [.hook a]) := by
  rcases hserved.trace with hsilent | ⟨address, value, -, -, hhook⟩
  · exact ⟨[], answered_after hserved.cfg (by rw [hsilent, List.append_nil]), .inl rfl⟩
  · exact ⟨[.hook address.toNat], answered_after hserved.cfg hhook, .inr ⟨address.toNat, rfl⟩⟩

/-- Settles O10: `exec_served` gives the response of every instruction, `Served.answered` its frame and events. -/
theorem everyInstructionSendsOneSealedResponse : Obligations.EveryInstructionSendsOneSealedResponse := by
  intro i s
  obtain ⟨s', pdu, hexec, hserved, -⟩ := exec_served i s
  obtain ⟨before, hanswered, hbefore⟩ := hserved.answered pdu
  exact ⟨sendResponse pdu s', before, pdu, hexec, hanswered, hbefore⟩

/-- R214 as one update. -/
theorem finishResponse_eq (s : State) :
    finishResponse s = { s with
      txDone := false, dir := false, phase := .rxArmed,
      trace := s.trace ++ [.setDir false, .delay s.cfg.tTurn, .armRx frameMax] } := by
  rw [← finishResponse_trace]
  rfl

theorem tick_of_sent {s : State} (hbusy : s.phase = .txBusy) (hsent : s.txDone = true) (t : Timestamp) :
    tick t s = .next (watchdogUpdate t (finishResponse s)) := by
  rw [tick, consumeEvent, if_pos ⟨hbusy, hsent⟩, thenDo_next]

/-- Settles O43: outside FAULT the step is the tick, and a tick that finds the response sent completes it. -/
theorem sentResponseIsCompletedByTheTick : Obligations.SentResponseIsCompletedByTheTick := by
  intro s t rest henv hbusy hsent
  rw [step_tick_of_running henv (by simp [hbusy]), tick_of_sent (s := { s with env := rest }) hbusy hsent,
    finishResponse_eq]
  rfl

end Sys2Proof.Machine
end

section
/-! The host interface: what each host call does inside its file and beyond it, and the tick that finds nothing to do
(R231 to R239). -/

namespace Sys2Proof.Machine

/-- The value v that a getter, called in state s on a backed slot, returns (R231, R235, R237). -/
def GetterReturns (s : State) (call : HostCall) (v : HostValue) : Prop :=
  (∃ id, call = .getCoil id ∧ id < s.cfg.nCoil ∧ v = .coil (s.coilRead id))
    ∨ (∃ id, call = .getRegister id ∧ id < s.cfg.nReg ∧ v = .register (s.regRead id))
    ∨ (call = .isMasterSilent ∧ v = .masterSilent s.timeoutFlag)

/-- The call is a coil setter on slot `id`, which asks for the value b there in state s (R232, R233, R234). -/
def AsksForCoil (s : State) (call : HostCall) (id : Nat) (b : Bool) : Prop :=
  (call = .setCoil id ∧ b = true) ∨ (call = .clearCoil id ∧ b = false)
    ∨ (call = .toggleCoil id ∧ b = !s.coilRead id)

/-- The call is the operation `op` with an `id` beyond the slots of its file (R239). -/
def IdOutOfRange (cfg : Config) (call : HostCall) (op : HostOp) (id : Nat) : Prop :=
  (call = .getCoil id ∧ op = .getCoil ∧ cfg.nCoil ≤ id) ∨ (call = .setCoil id ∧ op = .setCoil ∧ cfg.nCoil ≤ id)
    ∨ (call = .clearCoil id ∧ op = .clearCoil ∧ cfg.nCoil ≤ id)
    ∨ (call = .toggleCoil id ∧ op = .toggleCoil ∧ cfg.nCoil ≤ id)
    ∨ (call = .getRegister id ∧ op = .getRegister ∧ cfg.nReg ≤ id)
    ∨ (∃ v, call = .setRegister id v ∧ op = .setRegister ∧ cfg.nReg ≤ id)

/-! ### What a host call does -/

section
variable {s : State} {call : HostCall} {id : Nat}

theorem hostCall_of_getter {v : HostValue} (hgetter : GetterReturns s call v) : hostCall call s = s.giveBack v := by
  rcases hgetter with ⟨id, rfl, hid, rfl⟩ | ⟨id, rfl, hid, rfl⟩ | ⟨rfl, rfl⟩
  case inl => exact if_neg hid.not_ge
  case inr.inl => exact if_neg hid.not_ge
  case inr.inr => rfl

theorem hostCall_of_coilSetter {b : Bool} (hid : id < s.cfg.nCoil) (hsetter : AsksForCoil s call id b) :
    hostCall call s = s.coilWrite id b := by
  rcases hsetter with ⟨rfl, rfl⟩ | ⟨rfl, rfl⟩ | ⟨rfl, rfl⟩
  case inl => exact if_neg hid.not_ge
  case inr.inl => exact if_neg hid.not_ge
  case inr.inr =>
    rw [← Bool.xor_true]
    exact if_neg hid.not_ge

theorem hostCall_setRegister_of_backed (hid : id < s.cfg.nReg) (v : U16) :
    hostCall (.setRegister id v) s = s.regWrite id v :=
  if_neg hid.not_ge

/-- The six operations share one guard, which is fatal (R41). -/
theorem hostCall_of_outOfRange {op : HostOp} (hout : IdOutOfRange s.cfg call op id) :
    hostCall call s = fatal op id s := by
  rcases hout with ⟨rfl, rfl, hid⟩ | ⟨rfl, rfl, hid⟩ | ⟨rfl, rfl, hid⟩ | ⟨rfl, rfl, hid⟩ | ⟨rfl, rfl, hid⟩
    | ⟨v, rfl, rfl, hid⟩ <;> exact if_pos hid

end

/-! ### The steps of these moves -/

theorem step_host_of_running {s : State} {call : HostCall} {rest : List EnvMove} (henv : s.env = .host call :: rest)
    (hrunning : s.phase ≠ .fault) : step s = .next (hostCall call { s with env := rest }) := by
  simp [step, henv, envMove, hrunning]

/-- In phase FAULT no move but a new init has a step (R41, R282). -/
theorem step_of_fault {s : State} {m : EnvMove} {more : List EnvMove} (henv : s.env = m :: more)
    (hfault : s.phase = .fault) (hnotInit : ∀ t0, m ≠ .init t0) :
    step s = .fault (.instanceFaulted s.faultReason) := by
  rw [step, henv]
  cases m with
  | init t0 => exact absurd rfl (hnotInit t0)
  | tick t => exact if_pos hfault
  | rxComplete bytes => exact if_pos hfault
  | txComplete => exact if_pos hfault
  | host call => exact if_pos hfault

theorem tick_of_quiet {s : State} (hnotSent : ¬(s.phase = .txBusy ∧ s.txDone = true))
    (hnotLatched : ¬(s.phase = .rxArmed ∧ s.rxDone = true)) (t : Timestamp) :
    tick t s = .next (watchdogUpdate t s) := by
  rw [tick, consumeEvent, if_neg hnotSent, if_neg hnotLatched, thenDo_next]

/-! ### The statements -/

/-- Settles O38: an in-range setter is one write of its file, and a read after a write gives the written value at that
slot and the old one elsewhere. -/
theorem hostSettersWriteOneSlot : Obligations.HostSettersWriteOneSlot := by
  intro s rest hrunning
  constructor
  case left =>
    intro call id b henv hid hsetter
    refine ⟨State.coilWrite { s with env := rest } id b, ?_, by simp, fun a ha => by simp [ha], rfl⟩
    rw [step_host_of_running henv hrunning, hostCall_of_coilSetter (s := { s with env := rest }) hid hsetter]
  case right =>
    intro id v henv hid
    refine ⟨State.regWrite { s with env := rest } id v, ?_, by simp, fun a ha => by simp [ha], rfl⟩
    rw [step_host_of_running henv hrunning, hostCall_setRegister_of_backed (s := { s with env := rest }) hid]

/-- Settles O39: the call is `fatal` (R41), and the state it leaves is in FAULT, where `step_of_fault` applies. -/
theorem fatalHostCallStopsTheInstance : Obligations.FatalHostCallStopsTheInstance := by
  intro s rest call op id hrunning henv hout
  refine ⟨fatal op id { s with env := rest }, ?_, rfl, fun m more hnotInit => ?_⟩
  · rw [step_host_of_running henv hrunning, hostCall_of_outOfRange (s := { s with env := rest }) hout]
  · exact step_of_fault (s := { fatal op id { s with env := rest } with env := m :: more }) rfl rfl hnotInit

/-- Settles O17: the step is the tick, and a quiet tick is the watchdog's update. -/
theorem quietTickOnlyUpdatesTheWatchdog : Obligations.QuietTickOnlyUpdatesTheWatchdog := by
  intro s t rest henv hrunning hnotSent hnotLatched
  rw [step_tick_of_running henv hrunning, tick_of_quiet (s := { s with env := rest }) hnotSent hnotLatched]
  rfl

/-- Settles O37: a getter gives its value back (R266) and does nothing else. -/
theorem hostGettersReturnTheStateUnchanged : Obligations.HostGettersReturnTheStateUnchanged := by
  intro s rest call v hrunning henv hgetter
  rw [step_host_of_running henv hrunning, hostCall_of_getter (s := { s with env := rest }) hgetter]
  rfl

end Sys2Proof.Machine
end

section
/-! The watchdog's comparison across a wrap of the clock (R259, R260, D19, D20). -/

namespace Sys2Proof.Machine

theorem timedOut_eq_true_iff (t lastPoll : Timestamp) :
    timedOut t lastPoll = true ↔ 10000 ≤ (t - lastPoll).toNat :=
  decide_eq_true_iff

/-- Elapsed time below the clock's period is exact: the subtraction undoes the wrap of the addition (D19). -/
theorem toNat_elapsed_of_lt (t0 : Timestamp) {e : Nat} (he : e < 2 ^ 32) :
    (t0 + BitVec.ofNat 32 e - t0).toNat = e := by
  rw [add_sub_cancel_left, BitVec.toNat_ofNat, Nat.mod_eq_of_lt he]

/-- Settles O36: the comparator reads the elapsed time, which `toNat_elapsed_of_lt` gives exactly. -/
theorem elapsedTimeIsRightAcrossTheWrap : Obligations.ElapsedTimeIsRightAcrossTheWrap := by
  intro t0 e he
  rw [timedOut_eq_true_iff, toNat_elapsed_of_lt t0 he]

end Sys2Proof.Machine
end

section
/-! Re-arming, the one response in flight, and the init move (R280 to R285). -/

namespace Sys2Proof.Machine

/-! ### The init move (R280, R281, R282) -/

/-- In no phase is a new init refused, FAULT included (R282). -/
theorem step_init {s : State} {t0 : Timestamp} {rest : List EnvMove} (henv : s.env = .init t0 :: rest) :
    step s = .next (State.init s.cfg t0 rest) := by
  rw [step, henv]
  rfl

/-- Settles O46: the step is `State.init`, each of whose fields has R280's value by definition. -/
theorem initMakesANewInstance : Obligations.InitMakesANewInstance := by
  intro s t0 rest henv
  exact ⟨State.init s.cfg t0 rest, step_init henv, fun _ => rfl, fun _ => rfl, fun _ => rfl,
    rfl, rfl, rfl, rfl, rfl, rfl, rfl, rfl, rfl, rfl, rfl, rfl, rfl⟩

/-- Settles O47: reset is `init(0)` of the reference configuration, which is within the bounds of R5. -/
theorem invariantHoldsAfterReset : Obligations.InvariantHoldsAfterReset :=
  ⟨inv_init (by decide) 0#32 [], fun _ t0 env hcfg => inv_init hcfg t0 env⟩

/-! ### Which moves touch TxBuf and the port trace -/

theorem hostCall_txBuf (call : HostCall) (s : State) : (hostCall call s).txBuf = s.txBuf := by
  rcases hostCall_cases call s with ⟨op, id, hcall⟩ | ⟨v, hcall⟩ | ⟨id, b, -, hcall⟩ | ⟨id, v, -, -, hcall⟩
  · rw [hcall, fatal_txBuf]
  · rw [hcall, giveBack_txBuf]
  · rw [hcall, coilWrite_txBuf]
  · rw [hcall, regWrite_txBuf]

/-- Only a tick and a new init touch TxBuf or the port trace. -/
theorem step_output_cases {s u : State} (hstep : step s = .next u) :
    (u.txBuf = s.txBuf ∧ u.trace = s.trace)
      ∨ (∃ t rest, s.env = .tick t :: rest ∧ tick t { s with env := rest } = .next u)
      ∨ (∃ t0 rest, s.env = .init t0 :: rest) := by
  rcases step_cases hstep with ⟨-, -, rfl⟩ | ⟨t0, rest, henv, -⟩ | ⟨-, e, rest, henv, hmove⟩
  · exact .inl ⟨rfl, rfl⟩
  · exact .inr (.inr ⟨t0, rest, henv⟩)
  · rcases hmove with ⟨t, rfl, htick⟩ | ⟨bytes, -, -, -, rfl⟩ | ⟨-, -, -, rfl⟩ | ⟨call, -, rfl⟩
    · exact .inr (.inl ⟨t, rest, henv, htick⟩)
    · exact .inl ⟨receive_txBuf .., receive_trace ..⟩
    · exact .inl ⟨latchTx_txBuf .., latchTx_trace ..⟩
    · exact .inl ⟨hostCall_txBuf .., hostCall_trace ..⟩

/-! ### Which steps re-arm the receiver (R284) -/

theorem count_armRx_sendResponse (n : Nat) (pdu : List Byte) (s : State) :
    (sendResponse pdu s).trace.count (.armRx n) = s.trace.count (.armRx n) := by
  simp

/-- A handler calls the hook or nothing. -/
theorem Served.count_armRx {i : Instr} {s s' : State} (hserved : Served i s s') (n : Nat) :
    s'.trace.count (.armRx n) = s.trace.count (.armRx n) := by
  rcases hserved.trace with htrace | ⟨address, value, -, -, htrace⟩
  · rw [htrace]
  · simp [htrace]

/-- The tick of s completes a response that has been sent, or drops a frame (R130, R214). -/
def Rearms (s : State) : Prop :=
  (s.phase = .txBusy ∧ s.txDone = true) ∨ (s.phase = .rxArmed ∧ s.rxDone = true ∧ ∃ r, checkFrame s = some r)

theorem rearms_of_tick {t : Timestamp} {s u : State} {n : Nat} (htick : tick t s = .next u)
    (hmore : s.trace.count (.armRx n) < u.trace.count (.armRx n)) : Rearms s := by
  rcases tick_next htick with
    ⟨hphase, hsent, -⟩ | ⟨hphase, hlatched, r, hcheck, -⟩ | ⟨-, -, -, i, s', pdu, -, -, hserved, -, -, rfl⟩
      | ⟨-, -, -, fc, -, rfl⟩ | ⟨-, -, rfl⟩
  · exact .inl ⟨hphase, hsent⟩
  · exact .inr ⟨hphase, hlatched, r, hcheck⟩
  · exact absurd hmore ((count_armRx_sendResponse n pdu s').trans (hserved.count_armRx n)).le.not_gt
  · exact absurd hmore (count_armRx_sendResponse n _ (recordPoll t (consumeRx s))).le.not_gt
  · exact absurd hmore (lt_irrefl _)

/-- Settles O44: a move that adds a port event is a tick or a new init, and of the tick's branches the answering and
the quiet ones arm nothing. -/
theorem receiverIsRearmedOnlyAfterDropOrSendComplete :
    Obligations.ReceiverIsRearmedOnlyAfterDropOrSendComplete := by
  intro s u n hstep hmore
  rcases step_output_cases hstep with ⟨-, htrace⟩ | ⟨t, rest, henv, htick⟩ | hinit
  · exact absurd hmore (by simp [htrace])
  · have hrearms : Rearms { s with env := rest } := rearms_of_tick htick hmore
    exact .inl ⟨t, rest, henv, hrearms⟩
  · exact .inr hinit

/-! ### The response in flight (R285) -/

/-- In TX_BUSY a tick completes the response or waits; it processes no frame. -/
theorem tick_next_of_txBusy {t : Timestamp} {s u : State} (hbusy : s.phase = .txBusy) (htick : tick t s = .next u) :
    u = watchdogUpdate t (finishResponse s) ∨ u = watchdogUpdate t s := by
  by_cases hsent : s.txDone = true
  · rw [tick_of_sent hbusy hsent] at htick
    cases htick
    exact .inl rfl
  · rw [tick_of_quiet (by simp [hsent]) (by simp [hbusy])] at htick
    cases htick
    exact .inr rfl

theorem count_transmit_finishResponse (f : List Byte) (s : State) :
    (finishResponse s).trace.count (.transmit f) = s.trace.count (.transmit f) := by
  simp

/-- From TX_BUSY to its re-arming a step assembles nothing and hands nothing over. -/
theorem step_of_txBusy_sends_nothing {s u : State} (hstep : step s = .next u) (hbusy : s.phase = .txBusy)
    (hnotInit : ∀ t0 rest, s.env ≠ .init t0 :: rest) :
    u.txBuf = s.txBuf ∧ ∀ f, u.trace.count (.transmit f) = s.trace.count (.transmit f) := by
  rcases step_output_cases hstep with ⟨htxBuf, htrace⟩ | ⟨t, rest, -, htick⟩ | ⟨t0, rest, henv⟩
  · exact ⟨htxBuf, fun f => by rw [htrace]⟩
  · rcases tick_next_of_txBusy (s := { s with env := rest }) hbusy htick with rfl | rfl
    · exact ⟨finishResponse_txBuf .., fun f => count_transmit_finishResponse f { s with env := rest }⟩
    · exact ⟨rfl, fun _ => rfl⟩
  · exact absurd henv (hnotInit t0 rest)

/-- Settles O45: in TX_BUSY no step sends, and the tick of a validated frame ends with its answer handed over (O16). -/
theorem oneResponseIsInFlight : Obligations.OneResponseIsInFlight := by
  constructor
  case left =>
    intro s u hstep hbusy hnotInit
    exact step_of_txBusy_sends_nothing hstep hbusy hnotInit
  case right =>
    intro s t rest henv harmed hlatched hvalid
    obtain ⟨u, before, pdu, hstep, hanswered, -⟩ :=
      validatedFrameIsAnsweredOnceAndFeedsTheWatchdog s t rest henv harmed hlatched hvalid
    obtain ⟨-, -, hbusy, htrace⟩ := hanswered
    exact ⟨u, hstep, hbusy, by simp [htrace]⟩

end Sys2Proof.Machine
end
